-- ==== Sys2Proof/Word.lean ====
section
/-! DEFINITION. The word and byte types of spec/00_scope.md rule R1, and the two plain tuples the register file
is made of: four words (a key, a block, a lane) and eight words (the SM3 state, the digest). -/

namespace Sys2Proof

/-- A byte: an unsigned 8-bit value (R1). -/
abbrev Byte := BitVec 8

/-- A word: an unsigned 32-bit value (R1). -/
abbrev Word := BitVec 32

/-- Four like things in order: KEY[0..3], BIN[l][0..3], BOUT[l][0..3], the four lanes, a four-word window. -/
structure Quad (α : Type) where
  w0 : α
  w1 : α
  w2 : α
  w3 : α
  deriving DecidableEq, Repr

/-- Eight like things in order: DIGEST[0..7], the SM3 state V[0..8), the working registers A..H. -/
structure Oct (α : Type) where
  a : α
  b : α
  c : α
  d : α
  e : α
  f : α
  g : α
  h : α
  deriving DecidableEq, Repr

/-- The element at an index. -/
def Quad.get {α : Type} (q : Quad α) (i : Fin 4) : α :=
  match i with
  | 0 => q.w0
  | 1 => q.w1
  | 2 => q.w2
  | 3 => q.w3

/-- The tuple with one element replaced. -/
def Quad.set {α : Type} (q : Quad α) (i : Fin 4) (x : α) : Quad α :=
  match i with
  | 0 => { q with w0 := x }
  | 1 => { q with w1 := x }
  | 2 => { q with w2 := x }
  | 3 => { q with w3 := x }

/-- The elements in index order. -/
def Quad.toList {α : Type} (q : Quad α) : List α :=
  [q.w0, q.w1, q.w2, q.w3]

/-- One function applied to every element. -/
def Quad.map {α β : Type} (f : α → β) (q : Quad α) : Quad β :=
  ⟨f q.w0, f q.w1, f q.w2, f q.w3⟩

/-- The same four elements in the opposite order. -/
def Quad.reverse {α : Type} (q : Quad α) : Quad α :=
  ⟨q.w3, q.w2, q.w1, q.w0⟩

/-- Four equal elements. -/
def Quad.fill {α : Type} (x : α) : Quad α :=
  ⟨x, x, x, x⟩

/-- Exclusive or, word by word. -/
def Quad.xor (p q : Quad Word) : Quad Word :=
  ⟨p.w0 ^^^ q.w0, p.w1 ^^^ q.w1, p.w2 ^^^ q.w2, p.w3 ^^^ q.w3⟩

/-- The element at an index. -/
def Oct.get {α : Type} (o : Oct α) (i : Fin 8) : α :=
  match i with
  | 0 => o.a
  | 1 => o.b
  | 2 => o.c
  | 3 => o.d
  | 4 => o.e
  | 5 => o.f
  | 6 => o.g
  | 7 => o.h

/-- The elements in index order. -/
def Oct.toList {α : Type} (o : Oct α) : List α :=
  [o.a, o.b, o.c, o.d, o.e, o.f, o.g, o.h]

/-- One function applied to every element. -/
def Oct.map {α β : Type} (f : α → β) (o : Oct α) : Oct β :=
  ⟨f o.a, f o.b, f o.c, f o.d, f o.e, f o.f, f o.g, f o.h⟩

/-- Eight equal elements. -/
def Oct.fill {α : Type} (x : α) : Oct α :=
  ⟨x, x, x, x, x, x, x, x⟩

/-- Exclusive or, word by word. -/
def Oct.xor (p q : Oct Word) : Oct Word :=
  ⟨p.a ^^^ q.a, p.b ^^^ q.b, p.c ^^^ q.c, p.d ^^^ q.d, p.e ^^^ q.e, p.f ^^^ q.f, p.g ^^^ q.g, p.h ^^^ q.h⟩

end Sys2Proof
end

