-- ==== Sys2Proof/Config.lean ====
section
/-! DEFINITION. The parameters of the block (spec/00_scope.md section 4, spec/92_eei_decisions.md "Open parameters").
An OPEN parameter has no body here, so no proof can see its value; a parameter with a default in the spec has that
default. P_SPLIT is `Sys2Proof.Machine.floorSplit`, the argument `Sys2Proof.Machine.hparWith` takes
(Machine/Sm3Par.lean). -/

namespace Sys2Proof

/-- P_HAS_X4 (R27, D18), OPEN: whether `sm4.crypt4` exists. Log entry 3. -/
opaque Config.hasX4 : Bool

/-- P_N_LANES - 1 (R192, D11), OPEN: the number of partitions is an integer of at least 1, so the model keeps
how many there are beyond the first. Log entry 3. -/
opaque Config.extraLanes : Nat

/-- P_THRESHOLD (R190, D10): the reference value, 1 MiB = 2^20 bytes of padded message. -/
def Config.threshold : Nat := 1048576

/-- P_REGS_BASE (R66, D2), OPEN: where REGS sits in the host's address map. No rule depends on it. -/
opaque Config.regsBase : Nat

/-- P_MSGBUF_BASE (R66, D2), OPEN: where MSGBUF sits in the host's address map. No rule depends on it. -/
opaque Config.msgbufBase : Nat

/-- The parameters a command or CAP depends on, as plain data of the machine, so that a statement about every
state covers every choice of them. Nothing ever writes them (R27). -/
structure Params where
  /-- P_HAS_X4, the value of CAP.X4. -/
  hasX4 : Bool
  /-- P_N_LANES - 1. -/
  extraLanes : Nat
  /-- P_THRESHOLD, in bytes of padded message. -/
  threshold : Nat
  deriving DecidableEq, Repr

/-- P_N_LANES, an integer of at least 1 (R192). -/
def Params.nLanes (p : Params) : Nat := p.extraLanes + 1

/-- The parameters of this block. -/
def Config.params : Params :=
  { hasX4 := Config.hasX4, extraLanes := Config.extraLanes, threshold := Config.threshold }

end Sys2Proof
end

