-- ==== Sys2Proof/Syntax.lean ====
section
/-! DEFINITION. What the host can ask of the block: the six commands (spec/30_encoding.md rule R72), the registers of
REGS by name (spec/20_memory.md rule R51), the host's accesses (R50, R53, R77), and the pseudo-instructions of the host
API (R78). -/

namespace Sys2Proof

/-- The commands, one constructor per row of spec/opcode_table.json. No command has an explicit operand (R75). -/
inductive Instr where
  /-- `sm4.keyexp.enc` (R127). -/
  | sm4KeyexpEnc
  /-- `sm4.keyexp.dec` (R128). -/
  | sm4KeyexpDec
  /-- `sm4.crypt` (R143). -/
  | sm4Crypt
  /-- `sm4.crypt4` (R144). -/
  | sm4Crypt4
  /-- `sm3.hash` (R174). -/
  | sm3Hash
  /-- `sm3.hash.auto` (R196). -/
  | sm3HashAuto
  deriving DecidableEq, Repr

/-- The registers of REGS by name (R51). -/
inductive Reg where
  | cmd
  | status
  | cap
  | msgLenLo
  | msgLenHi
  | key (i : Fin 4)
  | rk (i : Fin 32)
  | bin (l w : Fin 4)
  | bout (l w : Fin 4)
  | digest (i : Fin 8)
  deriving DecidableEq, Repr

/-- One access of the host to REGS or MSGBUF (R50). A register access carries its width in bits and its byte
offset, so that the accesses of rule R52 that have no meaning can be written down, and are refused. -/
inductive Access where
  /-- Read REGS at a byte offset, `width` bits wide. -/
  | read (width off : Nat)
  /-- Write a value to REGS at a byte offset, `width` bits wide. -/
  | write (width off : Nat) (value : Word)
  /-- Read the MSGBUF byte at an address (R59). -/
  | readMsg (addr : Nat)
  /-- Write bytes to MSGBUF from an address on (R53). -/
  | writeMsg (addr : Nat) (bytes : List Byte)
  deriving DecidableEq, Repr

/-- The mnemonics and pseudo-instructions of the host's programs (R77, R78). Keys and blocks are byte strings of any
length here: the host API refuses a wrong length (R213 (b)). -/
inductive Pseudo where
  /-- A mnemonic: `wr CMD, <its command word>` (R77). -/
  | command (i : Instr)
  /-- `.word c`: `wr CMD, c` (R77). -/
  | word (c : Word)
  /-- `setkey K`. -/
  | setkey (key : List Byte)
  /-- `setblk l, P`. -/
  | setblk (l : Fin 4) (block : List Byte)
  /-- `getblk l`. -/
  | getblk (l : Fin 4)
  /-- `setmsg S`. -/
  | setmsg (msg : List Byte)
  /-- `getdigest`. -/
  | getdigest
  /-- `expand_key K, e`, with the reads of RK when they are wanted. -/
  | expandKey (key : List Byte) (forEncryption wanted : Bool)
  /-- `transform_block P`. -/
  | transformBlock (block : List Byte)
  /-- `hash_sm3 S`. -/
  | hashSm3 (msg : List Byte)
  deriving DecidableEq, Repr

/-- What the outside world does to the block: a host access, a line of the host's program that expands to accesses,
or the reset event (R240). -/
inductive Input where
  | access (a : Access)
  | pseudo (p : Pseudo)
  | reset
  deriving DecidableEq, Repr

/-- What a host read gives back: a register word, or a MSGBUF byte. -/
inductive ReadBack where
  | word (v : Word)
  | byte (b : Byte)
  deriving DecidableEq, Repr

end Sys2Proof
end

