-- ==== Sys2Proof/WellFormed.lean ====
section
/-! DEFINITION. Which commands and host operations are well formed: the checks of spec/20_memory.md rule R52 (width,
alignment, range, reserved offsets), the MSGBUF address range of rule R50, and the 16-byte keys and blocks of
spec/60_exceptions.md rule R213 (b). -/

namespace Sys2Proof

/-- Every command is well formed: a command has no operand, immediate or field that could be wrong (R75). -/
def Instr.wf (_ : Instr) : Bool := true

/-- A register access is one whole 32-bit word (R52). -/
def widthOk (width : Nat) : Bool := width == 32

/-- A register access is 4-byte aligned (R52). -/
def alignedOk (off : Nat) : Bool := off % 4 == 0

/-- A register access is inside REGS, offsets 0x000 to 0x1FF (R50, R52). -/
def insideOk (off : Nat) : Bool := off < 0x200

/-- The reserved offsets of the register map (R51): 0x00C, 0x018-0x01C, 0x030-0x07C, 0x1A0-0x1FC. -/
def reservedOff (off : Nat) : Bool :=
  (0x00C ≤ off && off < 0x010) || (0x018 ≤ off && off < 0x020) || (0x030 ≤ off && off < 0x080)
    || (0x1A0 ≤ off && off < 0x200)

/-- The register accesses that rule R52 allows. -/
def regAccessOk (width off : Nat) : Bool :=
  widthOk width && alignedOk off && insideOk off && !reservedOff off

/-- The accesses that have a meaning: rule R52 for REGS, addresses in [0, 2^64) for MSGBUF (R50). A MSGBUF
write of zero bytes has one up to and including address 2^64 (DESIGN CHOICE, log entry 18). -/
def Access.wf : Access → Bool
  | .read width off => regAccessOk width off
  | .write width off _ => regAccessOk width off
  | .readMsg addr => addr < 2 ^ 64
  | .writeMsg addr bytes => addr + bytes.length ≤ 2 ^ 64

/-- A key or block argument is exactly 16 bytes (R213 (b)). -/
def sixteenOk (bytes : List Byte) : Bool := bytes.length == 16

/-- The pseudo-instructions the host API accepts (R213 (b)). -/
def Pseudo.wf : Pseudo → Bool
  | .setkey key => sixteenOk key
  | .setblk _ block => sixteenOk block
  | .expandKey key _ _ => sixteenOk key
  | .transformBlock block => sixteenOk block
  | .command i => i.wf
  | .word _ => true
  | .getblk _ => true
  | .setmsg _ => true
  | .getdigest => true
  | .hashSm3 _ => true

/-- The inputs that have a meaning. -/
def Input.wf : Input → Bool
  | .access a => a.wf
  | .pseudo p => p.wf
  | .reset => true

end Sys2Proof
end

