-- ==== Sys2Proof/Decode.lean ====
section
/-! DEFINITION. The command decoder and encoder (spec/30_encoding.md rules R70-R74) and the register offset map in both
directions (spec/20_memory.md rule R51). -/

namespace Sys2Proof

/-- OP, bits 7:0 of a command word (R70). -/
def opField (c : Word) : BitVec 8 := c.extractLsb' 0 8

/-- F, bit 8 of a command word (R70). -/
def fField (c : Word) : BitVec 1 := c.extractLsb' 8 1

/-- RSV, bits 31:9 of a command word (R70). -/
def rsvField (c : Word) : BitVec 23 := c.extractLsb' 9 23

/-- The command word with the given fields (R70). -/
def cmd32 (rsv : BitVec 23) (f : BitVec 1) (op : BitVec 8) : Word := rsv ++ f ++ op

/-- One row of the opcode map (R72). -/
structure OpRow where
  mask : Word
  pattern : Word
  instr : Instr
  deriving DecidableEq, Repr

/-- The opcode map (R72); every row's mask is 0xFFFFFFFF (R71). -/
def opcodeMap : List OpRow :=
  [ ⟨0xFFFFFFFF, 0x00000101, .sm4KeyexpEnc⟩,
    ⟨0xFFFFFFFF, 0x00000001, .sm4KeyexpDec⟩,
    ⟨0xFFFFFFFF, 0x00000002, .sm4Crypt⟩,
    ⟨0xFFFFFFFF, 0x00000003, .sm4Crypt4⟩,
    ⟨0xFFFFFFFF, 0x00000010, .sm3Hash⟩,
    ⟨0xFFFFFFFF, 0x00000110, .sm3HashAuto⟩ ]

/-- Whether a command word is the row's: the masked word equals the match value (R71). -/
def OpRow.hits (r : OpRow) (c : Word) : Bool := c &&& r.mask == r.pattern

/-- Why a command word is illegal, by the cases rule R73 lists. STATUS records only that it is illegal (R210). -/
inductive Illegal where
  /-- RSV is not 0. -/
  | reservedBits
  /-- OP is 0x00. -/
  | zeroOpcode
  /-- OP is in 0x04..0x0F or 0x11..0xFF. -/
  | unassignedOpcode
  /-- F is 1 with an opcode that does not use it. -/
  | functionBit
  deriving DecidableEq, Repr

/-- The case of rule R73 that an illegal word falls under. -/
def illegalCase (c : Word) : Illegal :=
  if rsvField c ≠ 0 then .reservedBits
  else if opField c = 0 then .zeroOpcode
  else if opField c = 0x02 ∨ opField c = 0x03 then .functionBit
  else .unassignedOpcode

/-- Decoding a command word (R71): the row it equals, or the reason it is illegal (R73). Whether `sm4.crypt4` is
present is the command's own check (R74, R214). -/
def decode (c : Word) : Except Illegal Instr :=
  match opcodeMap.find? (fun r => r.hits c) with
  | some r => .ok r.instr
  | none => .error (illegalCase c)

/-- The OP field of each command (R72). -/
def Instr.op : Instr → BitVec 8
  | .sm4KeyexpEnc => 0x01
  | .sm4KeyexpDec => 0x01
  | .sm4Crypt => 0x02
  | .sm4Crypt4 => 0x03
  | .sm3Hash => 0x10
  | .sm3HashAuto => 0x10

/-- The F bit of each command (R72). -/
def Instr.fbit : Instr → BitVec 1
  | .sm4KeyexpEnc => 1
  | .sm4KeyexpDec => 0
  | .sm4Crypt => 0
  | .sm4Crypt4 => 0
  | .sm3Hash => 0
  | .sm3HashAuto => 1

/-- The command word of a command, built from its fields (R70, R72). -/
def encode (i : Instr) : Word := cmd32 0 i.fbit i.op

/-- The command word that `w` gives as a table row of `nbits` bits: the bits above `nbits` are 0. -/
def tableWord (nbits w : Nat) : Word := BitVec.ofNat 32 (w % 2 ^ nbits)

/-- The instruction the decoder reads from a table word. A command is exactly one 32-bit word (R76), so a row of
more than 32 bits is none. -/
def decodeTableWord (nbits w : Nat) : Option Instr :=
  if nbits ≤ 32 then (decode (tableWord nbits w)).toOption else none

/-- The byte offset of a register in REGS (R51). -/
def Reg.offset : Reg → Nat
  | .cmd => 0x000
  | .status => 0x004
  | .cap => 0x008
  | .msgLenLo => 0x010
  | .msgLenHi => 0x014
  | .key i => 0x020 + 4 * i.val
  | .rk i => 0x080 + 4 * i.val
  | .bin l w => 0x100 + 16 * l.val + 4 * w.val
  | .bout l w => 0x140 + 16 * l.val + 4 * w.val
  | .digest i => 0x180 + 4 * i.val

/-- The index of the word at `off` in a run of `n` registers from `base` on. -/
def wordIndex (base n off : Nat) : Option (Fin n) :=
  if h : base ≤ off ∧ off < base + 4 * n ∧ off % 4 = 0 then
    some ⟨(off - base) / 4, by omega⟩
  else none

/-- The lane and word of entry `k` of a four by four register group: `k = 4 l + w`. -/
def laneWord (k : Fin 16) : Fin 4 × Fin 4 :=
  (⟨k.val / 4, by omega⟩, ⟨k.val % 4, by omega⟩)

/-- The register at a byte offset of REGS, none where the map is reserved, misaligned or outside (R51). -/
def regAt (off : Nat) : Option Reg :=
  if off = 0x000 then some .cmd
  else if off = 0x004 then some .status
  else if off = 0x008 then some .cap
  else if off = 0x010 then some .msgLenLo
  else if off = 0x014 then some .msgLenHi
  else
    ((wordIndex 0x020 4 off).map Reg.key)
      <|> ((wordIndex 0x080 32 off).map Reg.rk)
      <|> ((wordIndex 0x100 16 off).map fun k => Reg.bin (laneWord k).1 (laneWord k).2)
      <|> ((wordIndex 0x140 16 off).map fun k => Reg.bout (laneWord k).1 (laneWord k).2)
      <|> ((wordIndex 0x180 8 off).map Reg.digest)

end Sys2Proof
end

