-- ==== Sys2Proof/Machine/State.lean ====
section
/-! DEFINITION. The state of the block (spec/10_state.md, spec/70_reset_and_hazards.md rule R241) as plain data, the
reasons a step can stop, and the state right after reset. -/

namespace Sys2Proof.Machine

/-- Why the machine stops with a fault. -/
inductive Fault where
  /-- The spec's model fault `UnwrittenRead` (R9, R40, R212): a command or a host read found a cell that nothing has
  written since reset. Raised by `RegWord.read` (registers) and `msgByte` (MSGBUF). Safe: it names no value for a cell
  the spec says has none. -/
  | unwrittenRead
  deriving DecidableEq, Repr

/-- Why an access has no meaning. -/
inductive Refusal where
  /-- A command that has no meaning in this model yet. Raised by `exec` alone. Safe. -/
  | notModelled (mnemonic : String)
  /-- A REGS access that is not 32 bits wide (R52, R213 (a)). Raised by `accessReg`. Safe. -/
  | wrongWidth
  /-- A REGS access at an offset that is not a multiple of 4 (R52, R213 (a)). Raised by `accessReg`. Safe. -/
  | misaligned
  /-- A REGS access outside 0x000-0x1FF (R52, R213 (a)). Raised by `accessReg`. Safe. -/
  | outsideRegs
  /-- A REGS access at a reserved offset (R51, R52, R213 (a)). Raised by `accessReg`. Safe. -/
  | reservedOffset
  /-- A key or block argument of the host API that is not 16 bytes long (R213 (b)). Raised by `Pseudo.expand`, before
  any register is written. Safe. -/
  | wrongLength
  /-- A MSGBUF access that reaches an address outside [0, 2^64), which MSGBUF does not have (R50), or a write of zero bytes
  above 2^64 (log entry 18): an access with no meaning, and no fault, since R65 has none but the reads of ⊥. Raised by
  `hostReadMsg` and `hostWriteMsg`, before any byte is written. Log entry 7. Safe. -/
  | outsideMsgbuf
  deriving DecidableEq, Repr

/-- A data register word with its defined/undefined mark (R40). `written = false` is the spec's ⊥: `val` is then the
value the model keeps under the mark and no read gives it out. -/
structure RegWord where
  written : Bool
  val : Word
  deriving DecidableEq, Repr

/-- ⊥, the reset value of every data register word (R241). The value under the mark is 0, log entry 2. -/
def RegWord.bottom : RegWord := { written := false, val := 0 }

/-- A defined word: what a host or engine write leaves (R40). -/
def RegWord.of (v : Word) : RegWord := { written := true, val := v }

/-- STATUS.ERR codes (R210). Codes 3-15 are reserved and never produced. -/
inductive ErrCode where
  | none
  | illegal
  | noKey
  deriving DecidableEq, Repr

/-- The fields of STATUS (R25). Its reserved bits are hardwired to 0 and have no storage. -/
structure Status where
  /-- Bit 0: RK holds a complete round-key sequence. -/
  rkv : Bool
  /-- Bit 1: its direction, 1 for encryption order. -/
  rkdir : Bool
  /-- Bit 2: the last successful SM3 command took the chunked path. -/
  par : Bool
  /-- Bits 7:4: the error code of the last command. -/
  err : ErrCode
  deriving DecidableEq, Repr

/-- The state of the block between two accesses. The engine's internal buffers (R34-R36) do not exist between commands
(R38, R241), so they are no part of it. -/
structure State where
  /-- The parameters P_HAS_X4 (the value of CAP.X4, R27), P_N_LANES and P_THRESHOLD. Nothing writes them. -/
  params : Params
  /-- KEY[0..3] (R23). -/
  key : Quad RegWord
  /-- RK[0..31] (R24). -/
  rk : Vector RegWord 32
  /-- STATUS (R25). -/
  status : Status
  /-- BIN[l][w] (R30). -/
  bin : Quad (Quad RegWord)
  /-- BOUT[l][w] (R31). -/
  bout : Quad (Quad RegWord)
  /-- MSG_LEN_LO (R32). -/
  msgLenLo : RegWord
  /-- MSG_LEN_HI (R32). -/
  msgLenHi : RegWord
  /-- DIGEST[0..7] (R33). -/
  digest : Oct RegWord
  /-- MSGBUF (R50, R53): the defined bytes, by rising address. An unlisted byte is ⊥. -/
  msgbuf : List Host.Cell
  /-- The host's accesses still to come, in program order (R60, R79). The model's own field: the block fetches
  nothing, and the host's sequence of accesses is the program. Log entry 4. -/
  inputs : List Input
  /-- What the host's reads have given back, oldest first (R77). The model's own field. Log entry 4. -/
  reads : List ReadBack
  deriving DecidableEq, Repr

/-- STATUS after reset (R241). -/
def Status.reset : Status := { rkv := false, rkdir := false, par := false, err := .none }

/-- The block right after reset (R241): STATUS is 0, CAP is `P_HAS_X4`, every data register word and every MSGBUF byte
is ⊥, and the host has performed no access. -/
def State.reset : State :=
  { params := Config.params
    key := Quad.fill RegWord.bottom
    rk := Vector.replicate 32 RegWord.bottom
    status := Status.reset
    bin := Quad.fill (Quad.fill RegWord.bottom)
    bout := Quad.fill (Quad.fill RegWord.bottom)
    msgLenLo := RegWord.bottom
    msgLenHi := RegWord.bottom
    digest := Oct.fill RegWord.bottom
    msgbuf := []
    inputs := []
    reads := [] }

end Sys2Proof.Machine
end

