-- ==== Sys2Proof/Machine/Bytes.lean ====
section
/-! DEFINITION. Byte order, rotation and byte strings: spec/00_scope.md rules R2-R6, spec/20_memory.md rules R54-R58. -/

namespace Sys2Proof.Machine

/-- `be32(b0, b1, b2, b3)`: b0 is the most significant byte (R3). -/
def be32 (b0 b1 b2 b3 : Byte) : Word := b0 ++ b1 ++ b2 ++ b3

/-- Byte lane m of a word, lane 0 the most significant (R2). -/
def lane (w : Word) (m : Fin 4) : Byte := w.extractLsb' (24 - 8 * m.val) 8

/-- `unbe32(w)`: the four bytes of a word, most significant first (R3). -/
def unbe32 (w : Word) : List Byte := [lane w 0, lane w 1, lane w 2, lane w 3]

/-- `be32at(s, k)`: the word whose bytes are s[k..k+4) (R3). Every use is inside the string. -/
def be32at (s : List Byte) (k : Nat) : Word :=
  be32 (s.getD k 0) (s.getD (k + 1) 0) (s.getD (k + 2) 0) (s.getD (k + 3) 0)

/-- `rotl(x, n)` for 0 ≤ n < 32 (R4); the rotation by 0 is the identity. -/
def rotl (x : Word) (n : Nat) : Word :=
  if n = 0 then x else (x <<< n) ||| (x >>> (32 - n))

/-- The four words of a 16-byte key or block: word i is be32at(s, 4i) (R55, R56). -/
def pack16 (s : List Byte) : Quad Word := ⟨be32at s 0, be32at s 4, be32at s 8, be32at s 12⟩

/-- The 16 bytes of four words (R56). -/
def unpack16 (q : Quad Word) : List Byte := unbe32 q.w0 ++ unbe32 q.w1 ++ unbe32 q.w2 ++ unbe32 q.w3

/-- The 32 digest bytes of a final state (R58). -/
def digestBytes (v : Oct Word) : List Byte := v.toList.flatMap unbe32

/-- The eight hexadecimal digits of a word, most significant first, lower case (R175). -/
def h8 (w : Word) : List Char :=
  (List.range 8).map fun i => Nat.digitChar (w.toNat / 16 ^ (7 - i) % 16)

/-- The digest text the host renders from DIGEST: 64 lower-case hexadecimal digits (R175). -/
def digestText (v : Oct Word) : List Char := v.toList.flatMap h8

end Sys2Proof.Machine
end

