-- ==== Sys2Proof/Machine/Ops.lean ====
section
/-! DEFINITION. The named operations over registers and memory: reading a cell that carries a defined/undefined mark
(spec/10_state.md rule R40, spec/60_exceptions.md rule R212), MSGBUF (spec/20_memory.md rule R53), the writes of result
registers, and ending a command with an error code (spec/60_exceptions.md rules R210, R211, R217), which is all the
block has in the place of an exception. -/

namespace Sys2Proof.Machine

/-- The outcome of one access or command. -/
abbrev Result := Host.Outcome State Fault Refusal

/-- Go on with a value that was read, or stop with the fault its reading raised (R212). -/
def withRead {α : Type} (r : Except Fault α) (k : α → Result) : Result :=
  match r with
  | .ok a => k a
  | .error f => .fault f

/-- Reading a register word: a ⊥ word is the model fault (R9, R40, R212). -/
def RegWord.read (c : RegWord) : Except Fault Word :=
  if c.written then .ok c.val else .error .unwrittenRead

/-- Reading four register words: the model fault if one of them is ⊥ (R127, R143, R212). -/
def readQuad (q : Quad RegWord) : Except Fault (Quad Word) :=
  match q.w0.read, q.w1.read, q.w2.read, q.w3.read with
  | .ok a, .ok b, .ok c, .ok d => .ok ⟨a, b, c, d⟩
  | _, _, _, _ => .error .unwrittenRead

/-- The MSGBUF byte at an address, none where it is ⊥: what an unlisted address reads as (R53, R241). -/
def memRead (m : List Host.Cell) (a : Nat) : Option Byte :=
  match m with
  | [] => none
  | (k, b) :: rest => if a = k then some b else memRead rest a

/-- MSGBUF with one byte written, its addresses still rising. -/
def memWrite (m : List Host.Cell) (a : Nat) (v : Byte) : List Host.Cell :=
  match m with
  | [] => [(a, v)]
  | (k, b) :: rest =>
    if a < k then (a, v) :: (k, b) :: rest
    else if a = k then (a, v) :: rest
    else (k, b) :: memWrite rest a v

/-- MSGBUF with bytes written from an address on, in increasing address order (R53). -/
def memWriteBytes (m : List Host.Cell) (a : Nat) : List Byte → List Host.Cell
  | [] => m
  | b :: bs => memWriteBytes (memWrite m a b) (a + 1) bs

/-- Whether every address of a memory is at least `lo`, rising, and inside [0, 2^64). -/
def memWfFrom (lo : Nat) : List Host.Cell → Bool
  | [] => true
  | (k, _) :: rest => decide (lo ≤ k) && decide (k < 2 ^ 64) && memWfFrom (k + 1) rest

/-- The canonical form of MSGBUF: strictly rising addresses in [0, 2^64). An unlisted byte is ⊥, which no entry can
hold, so equal buffers are equal lists. -/
def memWf (m : List Host.Cell) : Bool := memWfFrom 0 m

/-- Reading one MSGBUF byte: a ⊥ byte is the model fault (R53, R212). -/
def msgByte (m : List Host.Cell) (a : Nat) : Except Fault Byte :=
  match memRead m a with
  | some b => .ok b
  | none => .error .unwrittenRead

/-- `MemRead(a, n)`: the bytes at a .. a+n-1 in increasing address order (R8, R53). -/
def msgBytes (m : List Host.Cell) (a : Nat) : Nat → Except Fault (List Byte)
  | 0 => .ok []
  | n + 1 =>
    match msgByte m a with
    | .error f => .error f
    | .ok b =>
      match msgBytes m (a + 1) n with
      | .error f => .error f
      | .ok bs => .ok (b :: bs)

/-- The state with STATUS.ERR written (R29). -/
def State.setErr (s : State) (e : ErrCode) : State :=
  { s with status := { s.status with err := e } }

/-- A command ends with an error code: it writes STATUS.ERR and nothing else (R211). There is no trap entry: no state
is saved, no mode changes and there is no vector (R217); and nothing to return from (R218). -/
def failWith (e : ErrCode) (s : State) : Result := .next (s.setErr e)

/-- A command ends with ERR = NONE, leaving the state its other writes give (R29). -/
def succeed (s : State) : Result := .next (s.setErr .none)

/-- RK[0..31] written together (R24). -/
def State.writeRk (s : State) (v : Vector Word 32) : State :=
  { s with rk := v.map RegWord.of }

/-- One lane of BOUT written (R31). -/
def State.writeBout (s : State) (l : Fin 4) (q : Quad Word) : State :=
  { s with bout := s.bout.set l (q.map RegWord.of) }

/-- All four lanes of BOUT written (R31). -/
def State.writeBoutAll (s : State) (q : Quad (Quad Word)) : State :=
  { s with bout := q.map fun b => b.map RegWord.of }

/-- DIGEST[0..7] written (R33). -/
def State.writeDigest (s : State) (v : Oct Word) : State :=
  { s with digest := v.map RegWord.of }

/-- MSGBUF with bytes written by the host (R53). -/
def State.writeMsg (s : State) (a : Nat) (bytes : List Byte) : State :=
  { s with msgbuf := memWriteBytes s.msgbuf a bytes }

/-- The host has received the value of a read (R77). -/
def State.pushRead (s : State) (v : ReadBack) : State :=
  { s with reads := s.reads ++ [v] }

/-- The state with the host's remaining accesses replaced. -/
def State.setInputs (s : State) (inputs : List Input) : State :=
  { s with inputs := inputs }

end Sys2Proof.Machine
end

