-- ==== Sys2Proof/Machine/Flags.lean ====
section
/-! DEFINITION. The status bits: STATUS and CAP as the words the host reads (spec/10_state.md rules R25, R27), and what
each kind of command writes of them (R26, R28, R29). There are no arithmetic flags (R41). -/

namespace Sys2Proof.Machine

/-- A flag as a field of a word. -/
def bit (b : Bool) : Word := if b then 1 else 0

/-- The code of an error as STATUS.ERR holds it (R210). -/
def ErrCode.code : ErrCode → Word
  | .none => 0
  | .illegal => 1
  | .noKey => 2

/-- STATUS as the host reads it (R25): RKV bit 0, RKDIR bit 1, PAR bit 2, ERR bits 7:4, every other bit 0. -/
def Status.toWord (s : Status) : Word :=
  bit s.rkv ||| (bit s.rkdir <<< 1) ||| (bit s.par <<< 2) ||| (s.err.code <<< 4)

/-- CAP as the host reads it: X4 in bit 0, every other bit 0 (R27). -/
def State.capWord (s : State) : Word := bit s.params.hasX4

/-- What a successful `sm4.keyexp` writes: RKV is 1 and RKDIR its direction (R26). -/
def State.setRoundKeysValid (s : State) (forEncryption : Bool) : State :=
  { s with status := { s.status with rkv := true, rkdir := forEncryption } }

/-- What a successful SM3 command writes: whether it took the chunked path (R28). -/
def State.setPar (s : State) (chunked : Bool) : State :=
  { s with status := { s.status with par := chunked } }

end Sys2Proof.Machine
end

