-- ==== Sys2Proof/Machine/Operands.lean ====
section
/-! DEFINITION. The implicit operands of the commands (spec/30_encoding.md rule R75): the key, the round keys, a BIN
lane, the four BIN lanes and the SM3 message, each read with the check for ⊥ of spec/60_exceptions.md rule R212; and
every register as the host reads and writes it (spec/10_state.md rule R21). -/

namespace Sys2Proof.Machine

/-- The key words MK[0..4) (R121). -/
def State.readKey (s : State) : Except Fault (Quad Word) := readQuad s.key

/-- The round keys RK[0..32) (R24): the model fault if one of them is ⊥ (R40). In a run no word of RK is ⊥ once RKV is 1
(R25), so this raises none there. -/
def State.readRk (s : State) : Except Fault (Vector Word 32) :=
  if s.rk.toList.all RegWord.written then .ok (s.rk.map RegWord.val) else .error .unwrittenRead

/-- The input block of one lane (R30). -/
def State.readBin (s : State) (l : Fin 4) : Except Fault (Quad Word) := readQuad (s.bin.get l)

/-- The input blocks of all four lanes (R30): the model fault if any of the 16 words is ⊥ (R144, R212). -/
def State.readBinAll (s : State) : Except Fault (Quad (Quad Word)) :=
  match s.readBin 0, s.readBin 1, s.readBin 2, s.readBin 3 with
  | .ok a, .ok b, .ok c, .ok d => .ok ⟨a, b, c, d⟩
  | _, _, _, _ => .error .unwrittenRead

/-- The message length in bytes: MSG_LEN_LO is read first, then MSG_LEN_HI (R32, R214). -/
def State.readMsgLen (s : State) : Except Fault Nat :=
  match s.msgLenLo.read with
  | .error f => .error f
  | .ok lo =>
    match s.msgLenHi.read with
    | .error f => .error f
    | .ok hi => .ok (hi.toNat * 2 ^ 32 + lo.toNat)

/-- The message: bytes `MemRead(0, MSG_LEN)` of MSGBUF (R32, R53). -/
def State.readMessage (s : State) : Except Fault (List Byte) :=
  match s.readMsgLen with
  | .error f => .error f
  | .ok n => msgBytes s.msgbuf 0 n

/-- A register as the host reads it. CMD reads 0 (R21); STATUS and CAP are never ⊥ (R40). -/
def State.readReg (s : State) (r : Reg) : Except Fault Word :=
  match r with
  | .cmd => .ok 0
  | .status => .ok s.status.toWord
  | .cap => .ok s.capWord
  | .msgLenLo => s.msgLenLo.read
  | .msgLenHi => s.msgLenHi.read
  | .key i => (s.key.get i).read
  | .rk i => s.rk[i].read
  | .bin l w => ((s.bin.get l).get w).read
  | .bout l w => ((s.bout.get l).get w).read
  | .digest i => (s.digest.get i).read

/-- A register as the host writes it: KEY, BIN and MSG_LEN store the value and become defined (R40); a read-only
register (RK, STATUS, CAP, BOUT, DIGEST) keeps its value (R21); CMD has no storage (R22). -/
def State.writeReg (s : State) (r : Reg) (v : Word) : State :=
  match r with
  | .cmd => s
  | .status => s
  | .cap => s
  | .msgLenLo => { s with msgLenLo := RegWord.of v }
  | .msgLenHi => { s with msgLenHi := RegWord.of v }
  | .key i => { s with key := s.key.set i (RegWord.of v) }
  | .rk _ => s
  | .bin l w => { s with bin := s.bin.set l ((s.bin.get l).set w (RegWord.of v)) }
  | .bout _ _ => s
  | .digest _ => s

end Sys2Proof.Machine
end

