-- ==== Sys2Proof/Machine/Lanes.lean ====
section
/-! DEFINITION. The lanes of a command (spec/10_state.md rule R20, spec/44_sm3_parallel.md rule R197,
spec/42_sm4_block_transform.md rule R145) as agents that take their own steps in any interleaving: the spec lets a model
run a command as one atomic step, as `exec` does, because the result does not depend on the schedule (R61). A schedule
says which lane moves next. -/

namespace Sys2Proof.Machine

/-- A lane: its private state, and the inputs it has still to fold into it. -/
structure Lane (σ β : Type) where
  state : σ
  todo : List β
  deriving DecidableEq, Repr

/-- One step of one lane: it folds its next input into its own state; a finished lane stays as it is. -/
def laneStep {σ β : Type} (f : σ → β → σ) (l : Lane σ β) : Lane σ β :=
  match l.todo with
  | [] => l
  | x :: rest => { state := f l.state x, todo := rest }

/-- The lanes after the scheduled moves: `sched` lists which lane moves, in order. -/
def runLanes {σ β : Type} (f : σ → β → σ) (ls : List (Lane σ β)) : List Nat → List (Lane σ β)
  | [] => ls
  | p :: sched => runLanes f (ls.modify p (laneStep f)) sched

/-- The join: every lane has finished. -/
def joined {σ β : Type} (ls : List (Lane σ β)) : Bool := ls.all fun l => l.todo.isEmpty

/-- What a lane computes run to completion on its own. -/
def laneResult {σ β : Type} (f : σ → β → σ) (l : Lane σ β) : σ := l.todo.foldl f l.state

end Sys2Proof.Machine
end

