-- ==== Sys2Proof/Machine/Sm3.lean ====
section
/-! DEFINITION. SM3: the constants and Boolean functions, padding, message expansion, compression and the sequential hash
(spec/43_sm3_hash.md), with the meaning of `sm3.hash`. -/

namespace Sys2Proof.Machine

/-- IV[0..8) (R160). -/
def sm3IV : Oct Word :=
  ⟨0x7380166F, 0x4914B2B9, 0x172442D7, 0xDA8A0600, 0xA96F30BC, 0x163138AA, 0xE38DEE4D, 0xB0FB0E4E⟩

/-- The round constant T_j (R161). -/
def tj (j : Nat) : Word := if j < 16 then 0x79CC4519 else 0x7A879D8A

/-- FF_j: exclusive or, then majority (R162). -/
def ff (j : Nat) (x y z : Word) : Word :=
  if j < 16 then x ^^^ y ^^^ z else (x &&& y) ||| (x &&& z) ||| (y &&& z)

/-- GG_j: exclusive or, then choice (R163). -/
def gg (j : Nat) (x y z : Word) : Word :=
  if j < 16 then x ^^^ y ^^^ z else (x &&& y) ||| (~~~x &&& z)

/-- P0 (R164). -/
def p0 (x : Word) : Word := x ^^^ rotl x 9 ^^^ rotl x 17

/-- P1 (R165). -/
def p1 (x : Word) : Word := x ^^^ rotl x 15 ^^^ rotl x 23

/-- The number of zero bytes of the padding: z = (55 - n) mod 64, as a natural number (R166, D19). -/
def zeroCount (n : Nat) : Nat := (119 - n % 64) % 64

/-- The length suffix: the bit count 8 n mod 2^64, most significant byte first (R57, R166). -/
def lengthSuffix (n : Nat) : List Byte :=
  let bits := 8 * n % 2 ^ 64
  unbe32 (BitVec.ofNat 32 (bits / 2 ^ 32)) ++ unbe32 (BitVec.ofNat 32 (bits % 2 ^ 32))

/-- `Pad(M)` (R166). -/
def pad (m : List Byte) : List Byte :=
  m ++ [0x80] ++ List.replicate (zeroCount m.length) 0x00 ++ lengthSuffix m.length

/-- The words of block t of the padded message: W[i] = be32at(PM, 64 t + 4 i) (R57, R168). -/
def blockWords (pm : List Byte) (t : Nat) : Vector Word 16 :=
  Vector.ofFn fun i => be32at pm (64 * t + 4 * i.val)

/-- The blocks of a padded message, in order: there are |PM| / 64 (R167, R168). -/
def blocks (pm : List Byte) : List (Vector Word 16) :=
  (List.range (pm.length / 64)).map (blockWords pm)

/-- The next word of the schedule from the words before it, newest first: entry k - 1 is W[j - k] (R169). -/
def nextW (h : List Word) : Word :=
  p1 (h.getD 15 0 ^^^ h.getD 8 0 ^^^ rotl (h.getD 2 0) 15) ^^^ rotl (h.getD 12 0) 7 ^^^ h.getD 5 0

/-- The words of the schedule, newest first, with `n` more of them (R169). -/
def extendW (h : List Word) : Nat → List Word
  | 0 => h
  | n + 1 => extendW (nextW h :: h) n

/-- Each extension adds one word. -/
theorem extendW_length (h : List Word) (n : Nat) : (extendW h n).length = h.length + n := by
  induction n generalizing h with
  | zero => rfl
  | succ n ih => simp [extendW, ih]; omega

/-- The message schedule W[0..68) of a block (R168, R169). -/
def schedule (block : Vector Word 16) : Vector Word 68 :=
  ⟨(extendW block.toList.reverse 52).reverse.toArray, by simp [extendW_length]⟩

/-- The second schedule W'[0..64): W'[j] = W[j] ⊕ W[j+4] (R170). -/
def schedule' (w : Vector Word 68) : Vector Word 64 :=
  Vector.ofFn fun j => w[j.val] ^^^ w[j.val + 4]

/-- SS1 of round j (R171). -/
def ss1 (j : Nat) (v : Oct Word) : Word := rotl (rotl v.a 12 + v.e + rotl (tj j) (j % 32)) 7

/-- SS2 of round j (R171). -/
def ss2 (j : Nat) (v : Oct Word) : Word := ss1 j v ^^^ rotl v.a 12

/-- TT1 of round j (R171). -/
def tt1 (j : Nat) (w' : Word) (v : Oct Word) : Word := ff j v.a v.b v.c + v.d + ss2 j v + w'

/-- TT2 of round j (R171). -/
def tt2 (j : Nat) (w : Word) (v : Oct Word) : Word := gg j v.e v.f v.g + v.h + ss1 j v + w

/-- Round j of the compression: the eight registers written from their values before the round (R171). -/
def sm3Round (j : Nat) (w w' : Word) (v : Oct Word) : Oct Word :=
  { a := tt1 j w' v
    b := v.a
    c := rotl v.b 9
    d := v.c
    e := p0 (tt2 j w v)
    f := v.e
    g := rotl v.f 19
    h := v.g }

/-- The working registers after the 64 rounds, j = 0, 1, ..., 63 (R171). -/
def sm3Rounds (w : Vector Word 68) (w' : Vector Word 64) (v : Oct Word) : Oct Word :=
  (List.finRange 64).foldl (fun r j => sm3Round j.val w[j.val] w'[j.val] r) v

/-- `CF(V, block)`: the rounds, folded into V by exclusive or (R171, R172, conflict C3). -/
def cf (v : Oct Word) (block : Vector Word 16) : Oct Word :=
  let w := schedule block
  v.xor (sm3Rounds w (schedule' w) v)

/-- `Hseq(M)`, the standard SM3 digest (R173). -/
def hseq (m : List Byte) : Oct Word := (blocks (pad m)).foldl cf sm3IV

/-- `sm3.hash` (R174). -/
def execSm3Hash (s : State) : Result :=
  withRead s.readMessage fun m => succeed ((s.writeDigest (hseq m)).setPar false)

end Sys2Proof.Machine
end

