-- ==== Sys2Proof/Machine/Sm3Par.lean ====
section
/-! DEFINITION. The SM3 parallel chunk hasher (spec/44_sm3_parallel.md): the partitions, the lane chains, the merge, and
the meaning of `sm3.hash.auto`. With two or more partitions its value is not the SM3 digest, and the model keeps it as the
spec defines it (R199). -/

namespace Sys2Proof.Machine

/-- `N_eff = min(P_N_LANES, B)` (R192). -/
def nEff (nLanes b : Nat) : Nat := min nLanes b

/-- The floor split of B blocks into N_eff contiguous ranges [s_p, e_p); the last takes the leftover blocks (R193). -/
def floorSplit (b n : Nat) : List (Nat × Nat) :=
  (List.range n).map fun p => (p * (b / n), if p + 1 = n then b else (p + 1) * (b / n))

/-- The blocks with index in [s, e). -/
def blockRange (bs : List (Vector Word 16)) (r : Nat × Nat) : List (Vector Word 16) :=
  (bs.drop r.1).take (r.2 - r.1)

/-- The lanes at the start of the command: each seeded with IV, with the blocks of its range to fold in (R194, R197).
The split is the parameter P_SPLIT (D11). -/
def partLanes (split : Nat → Nat → List (Nat × Nat)) (nLanes : Nat) (bs : List (Vector Word 16)) :
    List (Lane (Oct Word) (Vector Word 16)) :=
  (split bs.length (nEff nLanes bs.length)).map fun r => { state := sm3IV, todo := blockRange bs r }

/-- The merge: exclusive or of the lanes' final states, word by word (R195). -/
def merge (ps : List (Oct Word)) : Oct Word := ps.foldr Oct.xor (Oct.fill 0)

/-- `Hpar(M)` for a given split: the lane chains one after another, then the merge (R194, R195, R197). -/
def hparWith (split : Nat → Nat → List (Nat × Nat)) (nLanes : Nat) (m : List Byte) : Oct Word :=
  merge ((partLanes split nLanes (blocks (pad m))).map (laneResult cf))

/-- `Hpar(M)` with the spec's floor split (R193, R195). -/
def hpar (nLanes : Nat) (m : List Byte) : Oct Word := hparWith floorSplit nLanes m

/-- Path selection: the chunked path when the padded length in bytes is above P_THRESHOLD, strictly (R190). -/
def chunked (p : Params) (m : List Byte) : Bool := p.threshold < (pad m).length

/-- The value `sm3.hash.auto` leaves in DIGEST (R190). -/
def hauto (p : Params) (m : List Byte) : Oct Word := if chunked p m then hpar p.nLanes m else hseq m

/-- `sm3.hash.auto` (R196). -/
def execSm3HashAuto (s : State) : Result :=
  withRead s.readMessage fun m =>
    succeed ((s.writeDigest (hauto s.params m)).setPar (chunked s.params m))

end Sys2Proof.Machine
end

