-- ==== Sys2Proof/Machine/Sm4.lean ====
section
/-! DEFINITION. SM4: the S-box, the linear transforms and the constants (spec/40_sbox_linear.md), the key schedule
(spec/41_sm4_key_schedule.md) and the block transform (spec/42_sm4_block_transform.md), with the meanings of
`sm4.keyexp.enc`, `sm4.keyexp.dec`, `sm4.crypt` and `sm4.crypt4`. -/

namespace Sys2Proof.Machine

/-- The S-box by rows: row r holds Sbox[16 r .. 16 r + 16) (R100). -/
def sboxRows : List (List Byte) :=
  [ [0xd6, 0x90, 0xe9, 0xfe, 0xcc, 0xe1, 0x3d, 0xb7, 0x16, 0xb6, 0x14, 0xc2, 0x28, 0xfb, 0x2c, 0x05],
    [0x2b, 0x67, 0x9a, 0x76, 0x2a, 0xbe, 0x04, 0xc3, 0xaa, 0x44, 0x13, 0x26, 0x49, 0x86, 0x06, 0x99],
    [0x9c, 0x42, 0x50, 0xf4, 0x91, 0xef, 0x98, 0x7a, 0x33, 0x54, 0x0b, 0x43, 0xed, 0xcf, 0xac, 0x62],
    [0xe4, 0xb3, 0x1c, 0xa9, 0xc9, 0x08, 0xe8, 0x95, 0x80, 0xdf, 0x94, 0xfa, 0x75, 0x8f, 0x3f, 0xa6],
    [0x47, 0x07, 0xa7, 0xfc, 0xf3, 0x73, 0x17, 0xba, 0x83, 0x59, 0x3c, 0x19, 0xe6, 0x85, 0x4f, 0xa8],
    [0x68, 0x6b, 0x81, 0xb2, 0x71, 0x64, 0xda, 0x8b, 0xf8, 0xeb, 0x0f, 0x4b, 0x70, 0x56, 0x9d, 0x35],
    [0x1e, 0x24, 0x0e, 0x5e, 0x63, 0x58, 0xd1, 0xa2, 0x25, 0x22, 0x7c, 0x3b, 0x01, 0x21, 0x78, 0x87],
    [0xd4, 0x00, 0x46, 0x57, 0x9f, 0xd3, 0x27, 0x52, 0x4c, 0x36, 0x02, 0xe7, 0xa0, 0xc4, 0xc8, 0x9e] ]
  ++
  [ [0xea, 0xbf, 0x8a, 0xd2, 0x40, 0xc7, 0x38, 0xb5, 0xa3, 0xf7, 0xf2, 0xce, 0xf9, 0x61, 0x15, 0xa1],
    [0xe0, 0xae, 0x5d, 0xa4, 0x9b, 0x34, 0x1a, 0x55, 0xad, 0x93, 0x32, 0x30, 0xf5, 0x8c, 0xb1, 0xe3],
    [0x1d, 0xf6, 0xe2, 0x2e, 0x82, 0x66, 0xca, 0x60, 0xc0, 0x29, 0x23, 0xab, 0x0d, 0x53, 0x4e, 0x6f],
    [0xd5, 0xdb, 0x37, 0x45, 0xde, 0xfd, 0x8e, 0x2f, 0x03, 0xff, 0x6a, 0x72, 0x6d, 0x6c, 0x5b, 0x51],
    [0x8d, 0x1b, 0xaf, 0x92, 0xbb, 0xdd, 0xbc, 0x7f, 0x11, 0xd9, 0x5c, 0x41, 0x1f, 0x10, 0x5a, 0xd8],
    [0x0a, 0xc1, 0x31, 0x88, 0xa5, 0xcd, 0x7b, 0xbd, 0x2d, 0x74, 0xd0, 0x12, 0xb8, 0xe5, 0xb4, 0xb0],
    [0x89, 0x69, 0x97, 0x4a, 0x0c, 0x96, 0x77, 0x7e, 0x65, 0xb9, 0xf1, 0x09, 0xc5, 0x6e, 0xc6, 0x84],
    [0x18, 0xf0, 0x7d, 0xec, 0x3a, 0xdc, 0x4d, 0x20, 0x79, 0xee, 0x5f, 0x3e, 0xd7, 0xcb, 0x39, 0x48] ]

/-- `Sbox[x]`: row the high hex digit of x, column the low one (R100). -/
def sbox (x : Byte) : Byte := (sboxRows.getD (x.toNat / 16) []).getD (x.toNat % 16) 0

/-- `τ(x)`: the S-box on each byte lane (R101). -/
def tau (x : Word) : Word := be32 (sbox (lane x 0)) (sbox (lane x 1)) (sbox (lane x 2)) (sbox (lane x 3))

/-- `L(B)`, the round function's diffusion (R102). -/
def linL (b : Word) : Word := b ^^^ rotl b 2 ^^^ rotl b 10 ^^^ rotl b 18 ^^^ rotl b 24

/-- `L'(B)`, the key schedule's diffusion: three terms (R103, conflict C1). -/
def linL' (b : Word) : Word := b ^^^ rotl b 13 ^^^ rotl b 23

/-- `T(x) = L(τ(x))` (R104). -/
def mixT (x : Word) : Word := linL (tau x)

/-- `T'(x) = L'(τ(x))` (R105). -/
def mixT' (x : Word) : Word := linL' (tau x)

/-- FK[0..4) (R106). -/
def fk : Quad Word := ⟨0xA3B1BAC6, 0x56AA3350, 0x677D9197, 0xB27022DC⟩

/-- CK[i], whose byte lane m is (7 (4i + m)) mod 256 (R107). -/
def ck (i : Nat) : Word :=
  be32 (BitVec.ofNat 8 (28 * i)) (BitVec.ofNat 8 (28 * i + 7)) (BitVec.ofNat 8 (28 * i + 14))
    (BitVec.ofNat 8 (28 * i + 21))

/-- CK[0..32) in order (R107). -/
def ckList : List Word := (List.range 32).map ck

/-- The word a round adds to the buffer: X[i] ⊕ mix(X[i+1] ⊕ X[i+2] ⊕ X[i+3] ⊕ k), from the four words X[i..i+4)
(R123 with T' and CK[i], R141 with T and the round key). -/
def feistelNext (mix : Word → Word) (w : Quad Word) (k : Word) : Word :=
  w.w0 ^^^ mix (w.w1 ^^^ w.w2 ^^^ w.w3 ^^^ k)

/-- The four-word window after a round (R125, R141). -/
def feistelRound (mix : Word → Word) (w : Quad Word) (k : Word) : Quad Word :=
  ⟨w.w1, w.w2, w.w3, feistelNext mix w k⟩

/-- The buffer of all the words: the four seeds, then one word a round (R34, R35). -/
def feistelBuf (mix : Word → Word) (w : Quad Word) : List Word → List Word
  | [] => w.toList
  | k :: ks => w.w0 :: feistelBuf mix (feistelRound mix w k) ks

/-- Each round adds one word to the four seeds (R125). -/
theorem feistelBuf_length (mix : Word → Word) (w : Quad Word) (ks : List Word) :
    (feistelBuf mix w ks).length = ks.length + 4 := by
  induction ks generalizing w with
  | nil => rfl
  | cons k ks ih => simp [feistelBuf, ih]

/-- There are 32 round constants (R107). -/
theorem ckList_length : ckList.length = 32 := by
  simp [ckList]

/-- `KeySchedule(MK)`: the 36 words K[0..36), K[0..4) being MK ⊕ FK (R120, R122, R123). -/
def keySchedule (mk : Quad Word) : Vector Word 36 :=
  ⟨(feistelBuf mixT' (mk.xor fk) ckList).toArray, by simp [feistelBuf_length, ckList_length]⟩

/-- The round keys in encryption order: rk[i] = K[i+4] (R124, R126). -/
def roundKeysEnc (mk : Quad Word) : Vector Word 32 :=
  let k := keySchedule mk
  Vector.ofFn fun i => k[i.val + 4]

/-- The round keys in decryption order: RK[i] = K[(31 - i) + 4] (R126, R128). -/
def roundKeysDec (mk : Quad Word) : Vector Word 32 :=
  let k := keySchedule mk
  Vector.ofFn fun i => k[(31 - i.val) + 4]

/-- The 36-word working buffer X of one lane (R35, R140, R141). -/
def blockBuf (p : Quad Word) (rks : Vector Word 32) : Vector Word 36 :=
  ⟨(feistelBuf mixT p rks.toList).toArray, by simp [feistelBuf_length]⟩

/-- The block transform on words: output word w is X[35 - w] (R142). -/
def sm4Words (p : Quad Word) (rks : Vector Word 32) : Quad Word :=
  let x := blockBuf p rks
  ⟨x[35], x[34], x[33], x[32]⟩

/-- `SM4F(P, RKs)` on a 16-byte block (R140, R142). -/
def sm4F (p : List Byte) (rks : Vector Word 32) : List Byte := unpack16 (sm4Words (pack16 p) rks)

/-- The four lanes of `sm4.crypt4` at its start: each has its own window, and the round keys to fold in (R145). -/
def cryptLanes (bin : Quad (Quad Word)) (rks : Vector Word 32) : List (Lane (Quad Word) Word) :=
  bin.toList.map fun p => { state := p, todo := rks.toList }

/-- `sm4.keyexp.enc` (R127). -/
def execSm4KeyexpEnc (s : State) : Result :=
  withRead s.readKey fun mk => succeed ((s.writeRk (roundKeysEnc mk)).setRoundKeysValid true)

/-- `sm4.keyexp.dec` (R128). -/
def execSm4KeyexpDec (s : State) : Result :=
  withRead s.readKey fun mk => succeed ((s.writeRk (roundKeysDec mk)).setRoundKeysValid false)

/-- `sm4.crypt`: NO_KEY when RKV = 0, before any operand is read; else one block (R143, R214). -/
def execSm4Crypt (s : State) : Result :=
  if s.status.rkv then
    withRead (s.readBin 0) fun p =>
      withRead s.readRk fun rks => succeed (s.writeBout 0 (sm4Words p rks))
  else failWith .noKey s

/-- `sm4.crypt4`: ILLEGAL without the capability (R74), then NO_KEY when RKV = 0, then four blocks (R144, R214). -/
def execSm4Crypt4 (s : State) : Result :=
  if s.params.hasX4 then
    if s.status.rkv then
      withRead s.readBinAll fun ps =>
        withRead s.readRk fun rks => succeed (s.writeBoutAll (ps.map fun p => sm4Words p rks))
    else failWith .noKey s
  else failWith .illegal s

end Sys2Proof.Machine
end

