-- ==== Sys2Proof/Machine/Dispatch.lean ====
section
/-! DEFINITION. One arm per command. -/

namespace Sys2Proof.Machine

/-- The effect of a command (spec/30_encoding.md rule R72). -/
def exec (i : Instr) (s : State) : Host.Outcome State Fault Refusal :=
  match i with
  | .sm4KeyexpEnc => Sys2Proof.Machine.execSm4KeyexpEnc s
  | .sm4KeyexpDec => Sys2Proof.Machine.execSm4KeyexpDec s
  | .sm4Crypt => Sys2Proof.Machine.execSm4Crypt s
  | .sm4Crypt4 => Sys2Proof.Machine.execSm4Crypt4 s
  | .sm3Hash => Sys2Proof.Machine.execSm3Hash s
  | .sm3HashAuto => Sys2Proof.Machine.execSm3HashAuto s

end Sys2Proof.Machine
end

