-- ==== Sys2Proof/Machine/HostPort.lean ====
section
/-! DEFINITION. The host's side of the block: which register accesses have a meaning (spec/20_memory.md rule R52), what
a read, a write, a CMD write and a MSGBUF access do (R21, R22, R53), what the host API's pseudo-instructions expand to
(spec/30_encoding.md rules R77, R78), and the reset event (spec/70_reset_and_hazards.md rule R240). -/

namespace Sys2Proof.Machine

/-- The register a REGS access reaches, or why it is refused (R52, R213 (a)). -/
def accessReg (width off : Nat) : Except Refusal Reg :=
  if width ≠ 32 then .error .wrongWidth
  else if off % 4 ≠ 0 then .error .misaligned
  else if 0x200 ≤ off then .error .outsideRegs
  else
    match regAt off with
    | none => .error .reservedOffset
    | some r => .ok r

/-- A write of `c` to CMD issues one command: it is decoded and run to completion; a word that is no command sets
ERR to ILLEGAL and changes nothing else (R22, R71, R73). -/
def issue (c : Word) (s : State) : Result :=
  match decode c with
  | .ok i => exec i s
  | .error _ => failWith .illegal s

/-- A host read of REGS: it has no side effect on the block (R59). -/
def hostRead (width off : Nat) (s : State) : Result :=
  match accessReg width off with
  | .error r => .refused r
  | .ok r => withRead (s.readReg r) fun v => .next (s.pushRead (.word v))

/-- A host write to REGS: to CMD it issues a command, to any other register it stores the value or, for a read-only
register, has no effect (R21, R22, R59). -/
def hostWrite (width off : Nat) (v : Word) (s : State) : Result :=
  match accessReg width off with
  | .error r => .refused r
  | .ok r => if r = .cmd then issue v s else .next (s.writeReg r v)

/-- A host read of a MSGBUF byte (R40, R59); an address MSGBUF does not have is refused (R50, R65, log entry 7). -/
def hostReadMsg (a : Nat) (s : State) : Result :=
  if a < 2 ^ 64 then withRead (msgByte s.msgbuf a) fun b => .next (s.pushRead (.byte b))
  else .refused .outsideMsgbuf

/-- A host write of MSGBUF bytes, at any address and with no alignment (R53); a write that goes past the last address is
refused as a whole (R50, R65, log entry 7). DESIGN CHOICE, log entry 18: R53 speaks of one byte or more; a write of zero
bytes stores nothing, at any address up to and including 2^64, and is refused above it. -/
def hostWriteMsg (a : Nat) (bytes : List Byte) (s : State) : Result :=
  if a + bytes.length ≤ 2 ^ 64 then .next (s.writeMsg a bytes) else .refused .outsideMsgbuf

/-- One access of the host. -/
def doAccess (x : Access) (s : State) : Result :=
  match x with
  | .read width off => hostRead width off s
  | .write width off v => hostWrite width off v s
  | .readMsg a => hostReadMsg a s
  | .writeMsg a bytes => hostWriteMsg a bytes s

/-- `wr REG, v` (R77). -/
def wr (r : Reg) (v : Word) : Access := .write 32 r.offset v

/-- `rd REG` (R77). -/
def rd (r : Reg) : Access := .read 32 r.offset

/-- The write of a command's word to CMD (R77). -/
def issueOp (i : Instr) : Access := wr .cmd (encode i)

/-- Four words written to four registers in order. -/
def wrQuad (r : Fin 4 → Reg) (q : Quad Word) : List Access :=
  [wr (r 0) q.w0, wr (r 1) q.w1, wr (r 2) q.w2, wr (r 3) q.w3]

/-- A 16-byte argument written to four registers as big-endian words, refused where its length is not 16
(R78, R213 (b)). -/
def wr16 (r : Fin 4 → Reg) (bytes : List Byte) : Except Refusal (List Access) :=
  if bytes.length = 16 then .ok (wrQuad r (pack16 bytes)) else .error .wrongLength

/-- `getblk l` (R78). -/
def getblkOps (l : Fin 4) : List Access :=
  [rd (.bout l 0), rd (.bout l 1), rd (.bout l 2), rd (.bout l 3)]

/-- `setmsg S` (R78). DESIGN CHOICE, log entry 17: the spec's floor(len / 2^32) is no 32-bit word when S has 2^64 bytes or
more; the model writes its low 32 bits, so a message of exactly 2^64 bytes leaves MSG_LEN = 0. (A longer one is refused at
its MSGBUF write.) -/
def setmsgOps (msg : List Byte) : List Access :=
  [ .writeMsg 0 msg,
    wr .msgLenLo (BitVec.ofNat 32 (msg.length % 2 ^ 32)),
    wr .msgLenHi (BitVec.ofNat 32 (msg.length / 2 ^ 32)) ]

/-- `getdigest` (R78). -/
def getdigestOps : List Access := (List.finRange 8).map fun i => rd (.digest i)

/-- `rd RK[0] .. rd RK[31]` (R78). -/
def getRkOps : List Access := (List.finRange 32).map fun i => rd (.rk i)

/-- The accesses a line of the host's program stands for (R77, R78). -/
def Pseudo.expand (p : Pseudo) : Except Refusal (List Access) :=
  match p with
  | .command i => .ok [issueOp i]
  | .word c => .ok [wr .cmd c]
  | .setkey key => wr16 Reg.key key
  | .setblk l block => wr16 (Reg.bin l) block
  | .getblk l => .ok (getblkOps l)
  | .setmsg msg => .ok (setmsgOps msg)
  | .getdigest => .ok getdigestOps
  | .expandKey key forEncryption wanted =>
    (wr16 Reg.key key).map fun ops =>
      ops ++ [issueOp (if forEncryption then .sm4KeyexpEnc else .sm4KeyexpDec)]
        ++ (if wanted then getRkOps else [])
  | .transformBlock block =>
    (wr16 (Reg.bin 0) block).map fun ops => ops ++ [issueOp .sm4Crypt] ++ getblkOps 0
  | .hashSm3 msg => .ok (setmsgOps msg ++ [issueOp .sm3Hash] ++ getdigestOps)

/-- The reset event (R240): every piece of the block is as after reset (R241). The parameters do not change, and the
host's program and what it has read are not the block's. -/
def resetEvent (s : State) : State :=
  { State.reset with params := s.params, inputs := s.inputs, reads := s.reads }

/-- What one input does to a state whose remaining inputs are those after it. -/
def takeInput (x : Input) (s : State) : Result :=
  match x with
  | .access a => doAccess a s
  | .pseudo p =>
    match Pseudo.expand p with
    | .error r => .refused r
    | .ok ops => .next (s.setInputs (ops.map Input.access ++ s.inputs))
  | .reset => .next (resetEvent s)

end Sys2Proof.Machine
end

