-- ==== Sys2Proof/Machine/Step.lean ====
section
/-! DEFINITION. One step: the host's next access takes effect, and a CMD write runs its command to completion before the
access after it (spec/10_state.md rule R22, spec/20_memory.md rule R60). With no access left the block is idle and keeps
its state (spec/70_reset_and_hazards.md rule R242, spec/60_exceptions.md rule R225). -/

namespace Sys2Proof.Machine

/-- One step of the machine. -/
def step (s : State) : Host.Outcome State Fault Refusal :=
  match s.inputs with
  | [] => .next s
  | x :: rest => takeInput x (s.setInputs rest)

/-- The state whose next access is the write to CMD of a table row's word: the very next step runs it. -/
def State.withFetchWord (s : State) (nbits w : Nat) : State :=
  s.setInputs (.access (.write 32 0 (tableWord nbits w)) :: s.inputs)

end Sys2Proof.Machine
end

