-- ==== Sys2Proof/Safety.lean ====
section
/-! DEFINITION. What counts as a safe state and what a command depends on and writes, in the terms the statements use:
the invariant every step keeps, the operands each command reads and the results it writes (spec/30_encoding.md rule R75),
and a run without a fault (spec/60_exceptions.md rule R212). -/

namespace Sys2Proof

/-- The registers the host can read but not write (R21, R51). -/
def Reg.readOnly : Reg → Bool
  | .rk _ => true
  | .status => true
  | .cap => true
  | .bout _ _ => true
  | .digest _ => true
  | .cmd => false
  | .msgLenLo => false
  | .msgLenHi => false
  | .key _ => false
  | .bin _ _ => false

/-- The registers the host can read and write (R51). -/
def Reg.readWrite : Reg → Bool
  | .msgLenLo => true
  | .msgLenHi => true
  | .key _ => true
  | .bin _ _ => true
  | .cmd => false
  | .status => false
  | .cap => false
  | .rk _ => false
  | .bout _ _ => false
  | .digest _ => false

end Sys2Proof

namespace Sys2Proof.Machine

/-- A ⊥ word keeps the value it had at reset, so equal register contents are equal data. -/
abbrev RegWord.Canonical (c : RegWord) : Prop := c.written = false → c.val = 0

/-- RK is written as a whole or not at all, and RKV says which (R24, R25). -/
abbrev State.RkMatchesRkv (s : State) : Prop := ∀ i : Fin 32, s.rk[i].written = s.status.rkv

/-- RKDIR is still 0 while RKV is 0 (R26, R241). -/
abbrev State.DirNeedsRkv (s : State) : Prop := s.status.rkv = false → s.status.rkdir = false

/-- A BOUT lane is written as a whole or not at all, and only once there are round keys (R31, R143, R144). -/
abbrev State.BoutLanesWhole (s : State) : Prop :=
  ∀ l w : Fin 4, ((s.bout.get l).get w).written = ((s.bout.get l).get 0).written
    ∧ (((s.bout.get l).get w).written = true → s.status.rkv = true)

/-- DIGEST is written as a whole or not at all, and PAR is 1 only when it is written (R28, R33). -/
abbrev State.DigestWhole (s : State) : Prop :=
  ∀ k : Fin 8, (s.digest.get k).written = s.digest.a.written
    ∧ (s.status.par = true → (s.digest.get k).written = true)

/-- Every ⊥ register word is canonical. -/
abbrev State.RegsCanonical (s : State) : Prop :=
  (∀ i : Fin 4, (s.key.get i).Canonical) ∧ (∀ i : Fin 32, s.rk[i].Canonical)
    ∧ (∀ l w : Fin 4, ((s.bin.get l).get w).Canonical) ∧ (∀ l w : Fin 4, ((s.bout.get l).get w).Canonical)
    ∧ s.msgLenLo.Canonical ∧ s.msgLenHi.Canonical ∧ (∀ k : Fin 8, (s.digest.get k).Canonical)

/-- The invariant of the block: what holds of every state a run from reset reaches. -/
abbrev State.Inv (s : State) : Prop :=
  memWf s.msgbuf = true ∧ s.RkMatchesRkv ∧ s.DirNeedsRkv ∧ s.BoutLanesWhole ∧ s.DigestWhole ∧ s.RegsCanonical

/-- Every word of KEY is defined. -/
abbrev State.KeyWritten (s : State) : Prop := ∀ i : Fin 4, (s.key.get i).written = true

/-- Every word of RK is defined. -/
abbrev State.RkWritten (s : State) : Prop := ∀ i : Fin 32, s.rk[i].written = true

/-- Every word of a BIN lane is defined. -/
abbrev State.BinWritten (s : State) (l : Fin 4) : Prop := ∀ w : Fin 4, ((s.bin.get l).get w).written = true

/-- MSG_LEN as its two words hold it (R32). -/
def State.msgLen (s : State) : Nat := s.msgLenHi.val.toNat * 2 ^ 32 + s.msgLenLo.val.toNat

/-- MSG_LEN is defined and is the length of `m`, and MSGBUF holds `m` from address 0 on (R32, R53). -/
abbrev State.HoldsMessage (s : State) (m : List Byte) : Prop :=
  s.msgLenLo.written = true ∧ s.msgLenHi.written = true ∧ s.msgLen = m.length
    ∧ ∀ a : Nat, ∀ h : a < m.length, memRead s.msgbuf a = some m[a]

/-- Two states agree on everything a command reads (R75, the "reads" column). -/
def sameOperands (i : Instr) (s u : State) : Prop :=
  match i with
  | .sm4KeyexpEnc => s.key = u.key
  | .sm4KeyexpDec => s.key = u.key
  | .sm4Crypt => s.status.rkv = u.status.rkv ∧ s.rk = u.rk ∧ s.bin.get 0 = u.bin.get 0
  | .sm4Crypt4 =>
    s.params.hasX4 = u.params.hasX4 ∧ s.status.rkv = u.status.rkv ∧ s.rk = u.rk ∧ s.bin = u.bin
  | .sm3Hash =>
    s.msgLenLo = u.msgLenLo ∧ s.msgLenHi = u.msgLenHi
      ∧ ∀ a < s.msgLen, memRead s.msgbuf a = memRead u.msgbuf a
  | .sm3HashAuto =>
    s.params.threshold = u.params.threshold ∧ s.params.extraLanes = u.params.extraLanes
      ∧ s.msgLenLo = u.msgLenLo ∧ s.msgLenHi = u.msgLenHi
      ∧ ∀ a < s.msgLen, memRead s.msgbuf a = memRead u.msgbuf a

/-- Two states agree on everything a successful command writes besides ERR (R75, the "writes" column). -/
def sameResults (i : Instr) (t v : State) : Prop :=
  match i with
  | .sm4KeyexpEnc => t.rk = v.rk ∧ t.status.rkv = v.status.rkv ∧ t.status.rkdir = v.status.rkdir
  | .sm4KeyexpDec => t.rk = v.rk ∧ t.status.rkv = v.status.rkv ∧ t.status.rkdir = v.status.rkdir
  | .sm4Crypt => t.bout.get 0 = v.bout.get 0
  | .sm4Crypt4 => t.bout = v.bout
  | .sm3Hash => t.digest = v.digest ∧ t.status.par = v.status.par
  | .sm3HashAuto => t.digest = v.digest ∧ t.status.par = v.status.par

/-- A run of `k` steps from `s` to `t`, none of which faults or is refused: the premise a claim about a host program
takes (R212). -/
def safeRun : Nat → State → State → Prop
  | 0, s, t => s = t
  | k + 1, s, t => ∃ u, step s = .next u ∧ safeRun k u t

/-- A run of some number of steps from `s` to `t` without a fault or a refusal: what a statement says of a host program
whose step count the spec does not give (log entry 8). -/
def State.runsTo (s t : State) : Prop := ∃ k : Nat, safeRun k s t

end Sys2Proof.Machine
end

