-- ==== Sys2Proof/Certificates/Slice0/Obligations.lean ====
section
/-! DEFINITION. The statements for the provers, from the numbered rules of spec/. Each docstring names the rule or the
log entry the statement rests on. -/

open Sys2Proof Sys2Proof.Machine

/-! ## The command encoding and the register map -/

/-- R70-R72: every well-formed command's word decodes to it, and no other word does. -/
def Obligations.DecodeOfEncode : Prop :=
  ∀ i : Instr, i.wf = true → decode (encode i) = .ok i ∧ ∀ c : Word, decode c = .ok i → c = encode i

/-- R70, R72: the fields of a command word, and the opcode map row by row, by fields and by word; the row of
`sm4.crypt4` is legal only when CAP.X4 = 1. -/
def Obligations.DecodeByFields : Prop :=
  (∀ (rsv : BitVec 23) (f : BitVec 1) (op : BitVec 8),
      rsvField (cmd32 rsv f op) = rsv ∧ fField (cmd32 rsv f op) = f ∧ opField (cmd32 rsv f op) = op
        ∧ (cmd32 rsv f op).toNat = rsv.toNat * 2 ^ 9 + f.toNat * 2 ^ 8 + op.toNat)
    ∧ (∀ (rsv : BitVec 23) (f : BitVec 1) (op : BitVec 8) (i : Instr),
        decode (cmd32 rsv f op) = .ok i
          ↔ rsv = 0 ∧ ((op = 0x01 ∧ f = 1 ∧ i = .sm4KeyexpEnc) ∨ (op = 0x01 ∧ f = 0 ∧ i = .sm4KeyexpDec)
              ∨ (op = 0x02 ∧ f = 0 ∧ i = .sm4Crypt) ∨ (op = 0x03 ∧ f = 0 ∧ i = .sm4Crypt4)
              ∨ (op = 0x10 ∧ f = 0 ∧ i = .sm3Hash) ∨ (op = 0x10 ∧ f = 1 ∧ i = .sm3HashAuto)))
    ∧ (∀ (c : Word) (i : Instr),
        decode c = .ok i
          ↔ (c = 0x00000101 ∧ i = .sm4KeyexpEnc) ∨ (c = 0x00000001 ∧ i = .sm4KeyexpDec)
              ∨ (c = 0x00000002 ∧ i = .sm4Crypt) ∨ (c = 0x00000003 ∧ i = .sm4Crypt4)
              ∨ (c = 0x00000010 ∧ i = .sm3Hash) ∨ (c = 0x00000110 ∧ i = .sm3HashAuto))
    ∧ ∀ s : State, s.params.hasX4 = false →
        issue 0x00000003 s = .next { s with status := { s.status with err := .illegal } }

/-- R73: the listed classes of words are illegal, and a word that is no command sets ERR to ILLEGAL and changes nothing
else. -/
def Obligations.IllegalWordsOnlySetErr : Prop :=
  (∀ c : Word,
      (opField c = 0x00 ∨ (0x04 ≤ (opField c).toNat ∧ (opField c).toNat ≤ 0x0F) ∨ 0x11 ≤ (opField c).toNat
          ∨ rsvField c ≠ 0 ∨ (fField c = 1 ∧ (opField c = 0x02 ∨ opField c = 0x03)))
        → ∀ i : Instr, c ≠ encode i)
    ∧ ∀ (c : Word) (s : State), (∀ i : Instr, c ≠ encode i)
        → issue c s = .next { s with status := { s.status with err := .illegal } }

/-- R74: without the capability the word 0x00000003 is illegal as rule R73 says, whatever RKV is, and CAP reads 0; with
it the word decodes to `sm4.crypt4`. -/
def Obligations.Crypt4NeedsCapability : Prop :=
  ∀ s : State,
    (s.params.hasX4 = false
        → issue 0x00000003 s = .next { s with status := { s.status with err := .illegal } }
          ∧ s.readReg .cap = .ok 0)
      ∧ (s.params.hasX4 = true
          → decode 0x00000003 = .ok .sm4Crypt4 ∧ issue 0x00000003 s = exec .sm4Crypt4 s ∧ s.readReg .cap = .ok 1)

/-- R72, R73: the table's words, written out bit by bit in the tests, decode to their commands, and a few others to
none. -/
def Obligations.TableWordsDecode : Prop :=
  decodeTableWord 32 0x00000101 = some .sm4KeyexpEnc ∧ decodeTableWord 32 0x00000001 = some .sm4KeyexpDec
    ∧ decodeTableWord 32 0x00000002 = some .sm4Crypt ∧ decodeTableWord 32 0x00000003 = some .sm4Crypt4
    ∧ decodeTableWord 32 0x00000010 = some .sm3Hash ∧ decodeTableWord 32 0x00000110 = some .sm3HashAuto
    ∧ decodeTableWord 32 0x00000000 = none ∧ decodeTableWord 32 0x00000102 = none
    ∧ decodeTableWord 32 0x00000201 = none ∧ decodeTableWord 32 0x80000010 = none

/-- R51: which register stands at which offset. -/
def Obligations.RegisterMap : Prop :=
  (∀ r : Reg, regAt r.offset = some r ∧ r.offset % 4 = 0 ∧ r.offset < 0x200)
    ∧ ∀ (off : Nat) (r : Reg),
        regAt off = some r
          ↔ match r with
            | .cmd => off = 0x000
            | .status => off = 0x004
            | .cap => off = 0x008
            | .msgLenLo => off = 0x010
            | .msgLenHi => off = 0x014
            | .key i => off = 0x020 + 4 * i.val
            | .rk i => off = 0x080 + 4 * i.val
            | .bin l w => off = 0x100 + 16 * l.val + 4 * w.val
            | .bout l w => off = 0x140 + 16 * l.val + 4 * w.val
            | .digest i => off = 0x180 + 4 * i.val

/-! ## One step -/

/-- R22, R71: a host write to CMD of a word that decodes to a command runs that command, as the very next step. The second
clause is the model's choice (log entry 4): `withFetchWord` stands for the host placing that write as its next access. -/
def Obligations.StepRunsIssuedCommand : Prop :=
  ∀ (c : Word) (i : Instr) (s : State), decode c = .ok i →
    (∀ rest, s.inputs = .access (.write 32 0x000 c) :: rest → step s = exec i (s.setInputs rest))
      ∧ step (s.withFetchWord 32 c.toNat) = exec i s

/-- R225, R242: with no host access left the block is idle and holds its registers. The list of accesses still to come is
the model's own field (log entry 4). -/
def Obligations.IdleBlockKeepsState : Prop :=
  ∀ s : State, s.inputs = [] → step s = .next s

/-- R60, R79: the access that takes effect is the host's next one, and no other: a step is that access's effect, leaves the
accesses after it in place, and is the same whatever they are. A pseudo-instruction is replaced by its accesses in a step
of its own (the model's choice, log entries 4 and 8). -/
def Obligations.AccessesTakeEffectInOrder : Prop :=
  ∀ (s : State) (x : Input) (rest : List Input), s.inputs = x :: rest →
    (∀ a : Access, x = .access a → step s = doAccess a (s.setInputs rest))
      ∧ (∀ p : Pseudo, x = .pseudo p →
          (∀ ops : List Access, Pseudo.expand p = .ok ops →
              step s = .next (s.setInputs (ops.map Input.access ++ rest)))
            ∧ ∀ r : Refusal, Pseudo.expand p = .error r → step s = .refused r)
      ∧ ∀ t : State, (∀ p : Pseudo, x ≠ .pseudo p) → step s = .next t →
          t.inputs = rest ∧ ∀ other : List Input, step (s.setInputs (x :: other)) = .next (t.setInputs other)

/-! ## Bytes, words and the SM4 primitives -/

/-- R2, R3: the byte lanes of a word, big-endian packing and its inverse. -/
def Obligations.BigEndianPacking : Prop :=
  (∀ (w : Word) (m : Fin 4), (lane w m).toNat = w.toNat / 2 ^ (24 - 8 * m.val) % 256)
    ∧ (∀ b0 b1 b2 b3 : Byte,
        (be32 b0 b1 b2 b3).toNat = b0.toNat * 2 ^ 24 + b1.toNat * 2 ^ 16 + b2.toNat * 2 ^ 8 + b3.toNat
          ∧ unbe32 (be32 b0 b1 b2 b3) = [b0, b1, b2, b3])
    ∧ (∀ w : Word, be32 (lane w 0) (lane w 1) (lane w 2) (lane w 3) = w)
    ∧ ∀ (s : List Byte) (k : Nat) (h : k + 3 < s.length), be32at s k = be32 s[k] s[k + 1] s[k + 2] s[k + 3]

/-- R4: rotation as arithmetic on the word's number, with the identity for n = 0. -/
def Obligations.RotateLeft : Prop :=
  ∀ (x : Word) (n : Nat), n < 32 →
    (rotl x n).toNat
      = if n = 0 then x.toNat else (x.toNat * 2 ^ n % 2 ^ 32) ||| (x.toNat / 2 ^ (32 - n))

/-- R100: the S-box is a permutation of the bytes, with the rule's four examples. -/
def Obligations.SboxPermutes : Prop :=
  (∀ x y : Byte, sbox x = sbox y → x = y)
    ∧ sbox 0x00 = 0xD6 ∧ sbox 0x01 = 0x90 ∧ sbox 0xEF = 0x84 ∧ sbox 0xFF = 0x48

/-- R101-R103, R108: τ is a bijection on words, and L and L' are XOR-linear. -/
def Obligations.MixerProperties : Prop :=
  Function.Bijective tau
    ∧ (∀ a b : Word, linL (a ^^^ b) = linL a ^^^ linL b)
    ∧ ∀ a b : Word, linL' (a ^^^ b) = linL' a ^^^ linL' b

/-- R101-R105, R164, R165, R127, R143, R174: the worked examples and known answers the spec gives. -/
def Obligations.WorkedExamples : Prop :=
  (tau 0x01234567 = 0x90F473A2 ∧ linL 0x01234567 = 0xFA26EB37 ∧ linL' 0x01234567 = 0xDA0F34E1
      ∧ mixT 0x01234567 = 0x6EF180C9 ∧ mixT' 0x01234567 = 0xCFC85B85 ∧ p0 0x00000001 = 0x00020201
      ∧ p1 0x00000001 = 0x00808001)
    ∧ (let k : Quad Word := ⟨0x01234567, 0x89ABCDEF, 0xFEDCBA98, 0x76543210⟩
       (roundKeysEnc k)[0] = 0xF12186F9 ∧ (roundKeysEnc k)[31] = 0x9124A012
        ∧ sm4Words k (roundKeysEnc k) = ⟨0x681EDF34, 0xD206965E, 0x86B3E94F, 0x536E4246⟩)
    ∧ hseq [] = ⟨0x1AB21D83, 0x55CFA17F, 0x8E611948, 0x31E81A8F, 0x22BEC8C7, 0x28FEFB74, 0x7ED035EB, 0x5082AA2B⟩
    ∧ hseq [0x61, 0x62, 0x63]
        = ⟨0x66C7F0F4, 0x62EEEDD9, 0xD1F2D46B, 0xDC10E4E2, 0x4167C487, 0x5CF2F7A2, 0x297DA02B, 0x8F4BA8E0⟩

/-! ## The SM4 key schedule -/

/-- R122, R123, R126: the schedule word by word, with FK (R106) and CK (R107) written out, and the two orders. -/
def Obligations.KeyScheduleRecurrence : Prop :=
  ∀ mk : Quad Word,
    let k := keySchedule mk
    (k[0] = mk.w0 ^^^ 0xA3B1BAC6 ∧ k[1] = mk.w1 ^^^ 0x56AA3350 ∧ k[2] = mk.w2 ^^^ 0x677D9197
        ∧ k[3] = mk.w3 ^^^ 0xB27022DC)
      ∧ ∀ (i : Nat) (h : i < 32),
          k[i + 4] = k[i] ^^^ mixT' (k[i + 1] ^^^ k[i + 2] ^^^ k[i + 3]
              ^^^ be32 (BitVec.ofNat 8 (28 * i)) (BitVec.ofNat 8 (28 * i + 7)) (BitVec.ofNat 8 (28 * i + 14))
                (BitVec.ofNat 8 (28 * i + 21)))
            ∧ (roundKeysEnc mk)[i] = k[i + 4] ∧ (roundKeysDec mk)[i] = k[(31 - i) + 4]

/-- R127: `sm4.keyexp.enc` completes whenever the four KEY words are defined, writing the 32 round keys in encryption
order, RKV, RKDIR and ERR and nothing else; a ⊥ KEY word is the model fault. -/
def Obligations.KeyexpEncOutcome : Prop :=
  encode .sm4KeyexpEnc = 0x00000101
    ∧ ∀ s : State,
      (s.KeyWritten →
          exec .sm4KeyexpEnc s = .next
            { s with
              rk := Vector.ofFn fun i : Fin 32 => RegWord.of (keySchedule (s.key.map RegWord.val))[i.val + 4]
              status := { s.status with rkv := true, rkdir := true, err := .none } })
        ∧ ((∃ i : Fin 4, (s.key.get i).written = false) → exec .sm4KeyexpEnc s = .fault .unwrittenRead)

/-- R128: `sm4.keyexp.dec`, the same with the keys in decryption order and RKDIR 0. -/
def Obligations.KeyexpDecOutcome : Prop :=
  encode .sm4KeyexpDec = 0x00000001
    ∧ ∀ s : State,
      (s.KeyWritten →
          exec .sm4KeyexpDec s = .next
            { s with
              rk := Vector.ofFn fun i : Fin 32 => RegWord.of (keySchedule (s.key.map RegWord.val))[(31 - i.val) + 4]
              status := { s.status with rkv := true, rkdir := false, err := .none } })
        ∧ ((∃ i : Fin 4, (s.key.get i).written = false) → exec .sm4KeyexpDec s = .fault .unwrittenRead)

/-- R129: after the two commands with the same KEY, D[i] = E[31 - i]. -/
def Obligations.KeyScheduleReversal : Prop :=
  ∀ s : State, s.KeyWritten →
    ∃ e d : State, exec .sm4KeyexpEnc s = .next e ∧ exec .sm4KeyexpDec s = .next d
      ∧ ∀ (i : Nat) (h : i < 32), d.rk[i] = e.rk[31 - i]

/-! ## The SM4 block transform -/

/-- R140-R142: the transform of a 16-byte block through its 36-word buffer. -/
def Obligations.BlockTransformRecurrence : Prop :=
  ∀ (p : List Byte) (rks : Vector Word 32), p.length = 16 →
    ∃ x : Vector Word 36,
      (∀ (w : Nat) (h : w < 4), x[w] = be32at p (4 * w))
        ∧ (∀ (i : Nat) (h : i < 32), x[i + 4] = x[i] ^^^ mixT (x[i + 1] ^^^ x[i + 2] ^^^ x[i + 3] ^^^ rks[i]))
        ∧ sm4F p rks = unbe32 x[35] ++ unbe32 x[34] ++ unbe32 x[33] ++ unbe32 x[32]

/-- R143: `sm4.crypt` with no round keys ends with NO_KEY and writes nothing else; with them and BIN[0] defined it
completes, writing BOUT[0] and ERR alone; a ⊥ word of BIN[0] is then the model fault. RK is defined whenever RKV is 1
by the invariant (`InvariantKept`). -/
def Obligations.CryptOutcome : Prop :=
  encode .sm4Crypt = 0x00000002
    ∧ ∀ s : State,
      (s.status.rkv = false → exec .sm4Crypt s = .next { s with status := { s.status with err := .noKey } })
        ∧ (s.status.rkv = true → s.RkWritten → s.BinWritten 0 →
            let x := blockBuf ((s.bin.get 0).map RegWord.val) (s.rk.map RegWord.val)
            exec .sm4Crypt s = .next
              { s with
                bout := s.bout.set 0 ⟨RegWord.of x[35], RegWord.of x[34], RegWord.of x[33], RegWord.of x[32]⟩
                status := { s.status with err := .none } })
        ∧ (s.status.rkv = true → (∃ w : Fin 4, ((s.bin.get 0).get w).written = false)
            → exec .sm4Crypt s = .fault .unwrittenRead)

/-- R144: `sm4.crypt4` without the capability ends with ILLEGAL, then with NO_KEY when RKV = 0, else completes when all
16 BIN words are defined, writing the four BOUT lanes and ERR alone; a ⊥ BIN word is then the model fault. -/
def Obligations.Crypt4Outcome : Prop :=
  encode .sm4Crypt4 = 0x00000003
    ∧ ∀ s : State,
      (s.params.hasX4 = false → exec .sm4Crypt4 s = .next { s with status := { s.status with err := .illegal } })
        ∧ (s.params.hasX4 = true → s.status.rkv = false
            → exec .sm4Crypt4 s = .next { s with status := { s.status with err := .noKey } })
        ∧ (s.params.hasX4 = true → s.status.rkv = true → s.RkWritten → (∀ l : Fin 4, s.BinWritten l) →
            exec .sm4Crypt4 s = .next
              { s with
                bout := s.bin.map fun q =>
                  let x := blockBuf (q.map RegWord.val) (s.rk.map RegWord.val)
                  ⟨RegWord.of x[35], RegWord.of x[34], RegWord.of x[33], RegWord.of x[32]⟩
                status := { s.status with err := .none } })
        ∧ (s.params.hasX4 = true → s.status.rkv = true
            → (∃ l w : Fin 4, ((s.bin.get l).get w).written = false)
            → exec .sm4Crypt4 s = .fault .unwrittenRead)

/-- R145: `sm4.crypt4` leaves in BOUT[l] what `sm4.crypt` would leave in BOUT[0] with BIN[0] = BIN[l]. -/
def Obligations.Crypt4LanesEqualCrypt : Prop :=
  ∀ s : State, s.params.hasX4 = true → s.status.rkv = true → s.RkWritten → (∀ l : Fin 4, s.BinWritten l) →
    ∃ t : State, exec .sm4Crypt4 s = .next t
      ∧ ∀ l : Fin 4, ∃ u : State, exec .sm4Crypt { s with bin := s.bin.set 0 (s.bin.get l) } = .next u
          ∧ t.bout.get l = u.bout.get 0

/-- R61, R145: the four lanes may take their rounds in any interleaving. Under every schedule that lets them finish, each
lane ends in its block's transform, and such a schedule exists. -/
def Obligations.CryptLanesAnySchedule : Prop :=
  ∀ (bin : Quad (Quad Word)) (rks : Vector Word 32),
    (∀ sched : List Nat, joined (runLanes (feistelRound mixT) (cryptLanes bin rks) sched) = true →
        (runLanes (feistelRound mixT) (cryptLanes bin rks) sched).map (fun l => l.state.reverse)
          = bin.toList.map fun p => sm4Words p rks)
      ∧ ∃ sched : List Nat, joined (runLanes (feistelRound mixT) (cryptLanes bin rks) sched) = true

/-- R148: for fixed round keys the transform is a bijection on 16-byte blocks, with the reversed keys as its inverse. -/
def Obligations.TransformIsBijection : Prop :=
  ∀ (p : List Byte) (rks : Vector Word 32), p.length = 16 →
    (sm4F p rks).length = 16 ∧ sm4F (sm4F p rks) rks.reverse = p ∧ sm4F (sm4F p rks.reverse) rks = p

/-- R147: encryption then decryption gives the block back, as a function and as the rule's host sequence, which runs to its
end in some number of steps; the host's copy of BOUT[0] to BIN[0] is the four writes between the two runs. -/
def Obligations.EncryptDecryptRoundTrip : Prop :=
  (∀ k p : List Byte, k.length = 16 → p.length = 16 →
      sm4F (sm4F p (roundKeysEnc (pack16 k))) (roundKeysDec (pack16 k)) = p)
    ∧ ∀ (s : State) (k p : List Byte), k.length = 16 → p.length = 16 →
        ∃ (t u : State) (c : Quad Word),
          (s.setInputs [.pseudo (.setkey k), .pseudo (.command .sm4KeyexpEnc), .pseudo (.setblk 0 p),
              .pseudo (.command .sm4Crypt)]).runsTo t
            ∧ t.inputs = [] ∧ t.status.err = .none ∧ t.bout.get 0 = c.map RegWord.of
            ∧ (t.setInputs [.access (wr (.bin 0 0) c.w0), .access (wr (.bin 0 1) c.w1),
                .access (wr (.bin 0 2) c.w2), .access (wr (.bin 0 3) c.w3),
                .pseudo (.command .sm4KeyexpDec), .pseudo (.command .sm4Crypt)]).runsTo u
            ∧ u.inputs = [] ∧ u.status.err = .none ∧ u.bout.get 0 = (pack16 p).map RegWord.of

/-- R146, R246: `sm4.crypt` does the same whatever RKDIR says. -/
def Obligations.DirectionIsNotChecked : Prop :=
  ∀ (s t : State) (b : Bool), exec .sm4Crypt s = .next t →
    exec .sm4Crypt { s with status := { s.status with rkdir := b } }
      = .next { t with status := { t.status with rkdir := b } }

/-! ## SM3 -/

/-- R166, R167: the padded message, its zero count, its length and its last eight bytes. -/
def Obligations.PaddingShape : Prop :=
  ∀ m : List Byte,
    ∃ (z : Nat) (hi lo : Word),
      z < 64 ∧ (z : Int) = (55 - (m.length : Int)) % 64
        ∧ hi.toNat * 2 ^ 32 + lo.toNat = 8 * m.length % 2 ^ 64
        ∧ pad m = m ++ [0x80] ++ List.replicate z 0x00 ++ unbe32 hi ++ unbe32 lo
        ∧ (pad m).length = m.length + 1 + z + 8 ∧ (pad m).length % 64 = 0
        ∧ (blocks (pad m)).length = (m.length + 8) / 64 + 1 ∧ 8 * (m.length + 1 + z) % 512 = 448

/-- R168-R170: the words of each block, their extension to 68 with P1 (R165) written out, and the second schedule. -/
def Obligations.ScheduleRecurrence : Prop :=
  (∀ m : List Byte, (blocks (pad m)).length * 64 = (pad m).length
      ∧ ∀ (t : Nat) (h : t < (blocks (pad m)).length) (i : Nat) (hi : i < 16),
          (blocks (pad m))[t][i] = be32at (pad m) (64 * t + 4 * i))
    ∧ ∀ block : Vector Word 16,
        let w := schedule block
        (∀ (i : Nat) (h : i < 16), w[i] = block[i])
          ∧ (∀ (j : Nat) (h : 16 ≤ j ∧ j < 68),
              let x := w[j - 16] ^^^ w[j - 9] ^^^ rotl w[j - 3] 15
              w[j] = (x ^^^ rotl x 15 ^^^ rotl x 23) ^^^ rotl w[j - 13] 7 ^^^ w[j - 6])
          ∧ ∀ (j : Nat) (h : j < 64), (schedule' w)[j] = w[j] ^^^ w[j + 4]

/-- R171, R172: the 64 rounds of the compression with their temporaries, the round constant T_j (R161), FF_j and GG_j (R162,
R163) and P0 (R164) written out, and the fold by exclusive or. -/
def Obligations.CompressionRounds : Prop :=
  ∀ (v : Oct Word) (block : Vector Word 16),
    let w := schedule block
    ∃ r : Nat → Oct Word,
      r 0 = v
        ∧ (∀ (j : Nat) (h : j < 64),
            let x := r j
            let t : Word := if j < 16 then 0x79CC4519 else 0x7A879D8A
            let ff : Word :=
              if j < 16 then x.a ^^^ x.b ^^^ x.c else (x.a &&& x.b) ||| (x.a &&& x.c) ||| (x.b &&& x.c)
            let gg : Word := if j < 16 then x.e ^^^ x.f ^^^ x.g else (x.e &&& x.f) ||| (~~~x.e &&& x.g)
            let ss1 := rotl (rotl x.a 12 + x.e + rotl t (j % 32)) 7
            let ss2 := ss1 ^^^ rotl x.a 12
            let tt1 := ff + x.d + ss2 + (schedule' w)[j]
            let tt2 := gg + x.h + ss1 + w[j]
            r (j + 1)
              = ⟨tt1, x.a, rotl x.b 9, x.c, tt2 ^^^ rotl tt2 9 ^^^ rotl tt2 17, x.e, rotl x.f 19, x.g⟩)
        ∧ ∀ k : Fin 8, (cf v block).get k = v.get k ^^^ (r 64).get k

/-- R173, R174, with IV (R160) written out: `sm3.hash` completes whenever the message is in place, whatever the parameters
are, leaving the sequential chain's final state in DIGEST, PAR = 0 and ERR = 0 and nothing else changed; a ⊥ length word or
message byte is the model fault. -/
def Obligations.HashOutcome : Prop :=
  encode .sm3Hash = 0x00000010
    ∧ ∀ s : State,
      (∀ m : List Byte, s.HoldsMessage m →
          ∃ v : Nat → Oct Word,
            v 0 = ⟨0x7380166F, 0x4914B2B9, 0x172442D7, 0xDA8A0600, 0xA96F30BC, 0x163138AA, 0xE38DEE4D, 0xB0FB0E4E⟩
              ∧ (∀ t : Nat, t < (m.length + 8) / 64 + 1 → v (t + 1) = cf (v t) (blockWords (pad m) t))
              ∧ v ((m.length + 8) / 64 + 1) = hseq m
              ∧ exec .sm3Hash s = .next
                  { s with
                    digest := (hseq m).map RegWord.of
                    status := { s.status with par := false, err := .none } })
        ∧ ((s.msgLenLo.written = false ∨ s.msgLenHi.written = false ∨ ∃ a < s.msgLen, memRead s.msgbuf a = none)
            → exec .sm3Hash s = .fault .unwrittenRead)

/-- R196: `sm3.hash.auto` completes whenever the message is in place, by the chunked path when the padded length is above
P_THRESHOLD and by the sequential path otherwise, writing DIGEST, PAR and ERR and nothing else; a ⊥ length word or message
byte is the model fault. -/
def Obligations.HashAutoOutcome : Prop :=
  encode .sm3HashAuto = 0x00000110
    ∧ ∀ s : State,
      (∀ m : List Byte, s.HoldsMessage m →
          let bs := blocks (pad m)
          let nEff := min s.params.nLanes bs.length
          let q := bs.length / nEff
          let ps := (List.range nEff).map fun p =>
            ((bs.drop (p * q)).take ((if p + 1 = nEff then bs.length else (p + 1) * q) - p * q)).foldl cf sm3IV
          exec .sm3HashAuto s = .next
            { s with
              digest :=
                (if s.params.threshold < (pad m).length then ps.foldr Oct.xor (Oct.fill 0) else hseq m).map RegWord.of
              status := { s.status with par := decide (s.params.threshold < (pad m).length), err := .none } })
        ∧ ((s.msgLenLo.written = false ∨ s.msgLenHi.written = false ∨ ∃ a < s.msgLen, memRead s.msgbuf a = none)
            → exec .sm3HashAuto s = .fault .unwrittenRead)

/-- R193: the partitions by their bounds: non-empty, contiguous, in order, covering [0, B). -/
def Obligations.FloorSplitCovers : Prop :=
  ∀ b n : Nat, 1 ≤ n → n ≤ b →
    1 ≤ b / n ∧ (floorSplit b n).length = n
      ∧ ∀ (p : Nat) (h : p < (floorSplit b n).length),
          (floorSplit b n)[p].1 = p * (b / n)
            ∧ (floorSplit b n)[p].2 = (if p = n - 1 then b else (p + 1) * (b / n))
            ∧ (floorSplit b n)[p].1 < (floorSplit b n)[p].2
            ∧ (∀ h' : p + 1 < (floorSplit b n).length, (floorSplit b n)[p].2 = (floorSplit b n)[p + 1].1)

/-- R192, R194: there are min(P_N_LANES, B) partition lanes, each seeded with IV and with at least one block, and their
blocks in lane order are the blocks of the padded message. -/
def Obligations.PartitionsCoverBlocks : Prop :=
  ∀ (n : Nat) (m : List Byte), 1 ≤ n →
    (partLanes floorSplit n (blocks (pad m))).length = min n (blocks (pad m)).length
      ∧ (∀ l ∈ partLanes floorSplit n (blocks (pad m)), l.state = sm3IV ∧ l.todo ≠ [])
      ∧ ((partLanes floorSplit n (blocks (pad m))).map fun l => l.todo).flatten = blocks (pad m)

/-- R195: the merge is the exclusive or of the partial states, word by word, and does not depend on their order. -/
def Obligations.MergeIsOrderFree : Prop :=
  (∀ (ps : List (Oct Word)) (k : Fin 8), (merge ps).get k = (ps.map fun v => v.get k).foldr (· ^^^ ·) 0)
    ∧ ∀ ps qs : List (Oct Word), ps.Perm qs → merge ps = merge qs

/-- R197, R61: the partition lanes may run in any interleaving. Under every schedule that lets them finish, the merge at
the join is Hpar, and such a schedule exists. -/
def Obligations.PartitionLanesAnySchedule : Prop :=
  ∀ (n : Nat) (m : List Byte),
    (∀ sched : List Nat, joined (runLanes cf (partLanes floorSplit n (blocks (pad m))) sched) = true →
        merge ((runLanes cf (partLanes floorSplit n (blocks (pad m))) sched).map fun l => l.state) = hpar n m)
      ∧ ∃ sched : List Nat, joined (runLanes cf (partLanes floorSplit n (blocks (pad m))) sched) = true

/-- R198: with one partition the chunked path gives the standard digest. -/
def Obligations.SinglePartitionIsStandard : Prop :=
  ∀ (n : Nat) (m : List Byte), nEff n (blocks (pad m)).length = 1 → hpar n m = hseq m

/-- R199: with two partitions the chunked value can differ from the standard digest. -/
def Obligations.ChunkedPathDiverges : Prop :=
  ∃ (n : Nat) (m : List Byte), 2 ≤ nEff n (blocks (pad m)).length ∧ hpar n m ≠ hseq m

/-- R191: where the boundary of the chunked path falls at the reference threshold. -/
def Obligations.ReferenceThresholdBoundary : Prop :=
  Config.threshold = 1048576
    ∧ ∀ (p : Params) (m : List Byte), p.threshold = 1048576 →
        (m.length ≤ 1048567 → (pad m).length ≤ 1048576 ∧ chunked p m = false)
          ∧ (m.length = 1048567 → zeroCount m.length = 0 ∧ (pad m).length = 1048576)
          ∧ (1048568 ≤ m.length → 1048640 ≤ (pad m).length ∧ chunked p m = true)

/-- R58, R175: the digest as 32 bytes and as 64 lower-case hexadecimal digits: which byte and which digit stands where. The
text determines the digest. -/
def Obligations.DigestRendering : Prop :=
  (∀ v : Oct Word, (digestBytes v).length = 32
      ∧ ∀ (k : Fin 8) (m : Fin 4), (digestBytes v)[4 * k.val + m.val]? = some (lane (v.get k) m))
    ∧ (∀ v : Oct Word, (digestText v).length = 64
        ∧ ∀ (k i : Fin 8), (digestText v)[8 * k.val + i.val]?
            = ['0', '1', '2', '3', '4', '5', '6', '7', '8', '9', 'a', 'b', 'c', 'd', 'e', 'f'][
                (v.get k).toNat / 16 ^ (7 - i.val) % 16]?)
    ∧ ∀ v u : Oct Word, digestText v = digestText u → v = u

/-! ## STATUS, errors and faults -/

/-- R25: the fields of STATUS as the host reads it, its reserved bits 0, and no host write to it. -/
def Obligations.StatusLayout : Prop :=
  (∀ st : Status,
      st.toWord.getLsbD 0 = st.rkv ∧ st.toWord.getLsbD 1 = st.rkdir ∧ st.toWord.getLsbD 2 = st.par
        ∧ st.toWord.getLsbD 3 = false ∧ (st.toWord.extractLsb' 4 4 : BitVec 4).toNat = st.err.code.toNat
        ∧ ∀ i : Nat, 8 ≤ i → st.toWord.getLsbD i = false)
    ∧ ∀ (s : State) (v : Word), (s.writeReg .status v).status = s.status

/-- R26: what sets RKV and RKDIR, that no other command and no illegal word writes them, and that RKV stays 1 until
reset. -/
def Obligations.RoundKeyFlags : Prop :=
  (∀ s t : State, exec .sm4KeyexpEnc s = .next t →
      t.status.err = .none ∧ t.status.rkv = true ∧ t.status.rkdir = true)
    ∧ (∀ s t : State, exec .sm4KeyexpDec s = .next t →
        t.status.err = .none ∧ t.status.rkv = true ∧ t.status.rkdir = false)
    ∧ (∀ (c : Word) (s t : State), issue c s = .next t → c ≠ encode .sm4KeyexpEnc → c ≠ encode .sm4KeyexpDec →
        t.status.rkv = s.status.rkv ∧ t.status.rkdir = s.status.rkdir)
    ∧ ∀ s t : State, step s = .next t → s.status.rkv = true → s.inputs.head? ≠ some .reset → t.status.rkv = true

/-- R28: PAR is written by the SM3 commands alone: 0 by `sm3.hash`, and by `sm3.hash.auto` whether it took the chunked
path. -/
def Obligations.ParFlag : Prop :=
  (∀ s t : State, exec .sm3Hash s = .next t → t.status.err = .none ∧ t.status.par = false)
    ∧ (∀ (s t : State) (m : List Byte), s.HoldsMessage m → exec .sm3HashAuto s = .next t →
        t.status.err = .none ∧ (t.status.par = true ↔ s.params.threshold < (pad m).length))
    ∧ ∀ (c : Word) (s t : State), issue c s = .next t → c ≠ encode .sm3Hash → c ≠ encode .sm3HashAuto →
        t.status.par = s.status.par

/-- R211: a command that ends with ERR ≠ 0 writes STATUS.ERR and nothing else. -/
def Obligations.FailedCommandWritesOnlyErr : Prop :=
  ∀ (c : Word) (s t : State), issue c s = .next t → t.status.err ≠ .none →
    t = { s with status := { s.status with err := t.status.err } }

/-- R210: which error code a command that ends leaves, and the code as STATUS bits 7:4 hold it. -/
def Obligations.ErrorCodes : Prop :=
  ∀ (c : Word) (s t : State), issue c s = .next t →
    (t.status.err = .illegal ↔ (∀ i : Instr, c ≠ encode i) ∨ (c = encode .sm4Crypt4 ∧ s.params.hasX4 = false))
      ∧ (t.status.err = .noKey
          ↔ s.status.rkv = false ∧ (c = encode .sm4Crypt ∨ (c = encode .sm4Crypt4 ∧ s.params.hasX4 = true)))
      ∧ (t.status.toWord.extractLsb' 4 4 : BitVec 4)
          = match t.status.err with
            | .none => 0
            | .illegal => 1
            | .noKey => 2

/-- R212, R214: in the states the invariant allows, the command words that fault are exactly those whose operands hold a
⊥ cell and that no earlier check stops. -/
def Obligations.CommandFaults : Prop :=
  ∀ (c : Word) (s : State) (f : Fault), s.Inv →
    (issue c s = .fault f
      ↔ f = .unwrittenRead
        ∧ (((c = 0x00000101 ∨ c = 0x00000001) ∧ ∃ i : Fin 4, (s.key.get i).written = false)
            ∨ (c = 0x00000002 ∧ s.status.rkv = true ∧ ∃ w : Fin 4, ((s.bin.get 0).get w).written = false)
            ∨ (c = 0x00000003 ∧ s.params.hasX4 = true ∧ s.status.rkv = true
                ∧ ∃ l w : Fin 4, ((s.bin.get l).get w).written = false)
            ∨ ((c = 0x00000010 ∨ c = 0x00000110)
                ∧ (s.msgLenLo.written = false ∨ s.msgLenHi.written = false
                    ∨ ∃ a < s.msgLen, memRead s.msgbuf a = none))))

/-- R80, R220: every command word can be issued at any time: none is refused. -/
def Obligations.CommandsNeverRefused : Prop :=
  ∀ (c : Word) (s : State) (r : Refusal), issue c s ≠ .refused r

/-- R75 (its writes), R23, R30, R31, R53: what a command that ends leaves unchanged. Every register but its results, every
flag but those it names, and every byte of MSGBUF. -/
def Obligations.CommandFrame : Prop :=
  ∀ (i : Instr) (s t : State), exec i s = .next t →
    (t.key = s.key ∧ t.bin = s.bin ∧ t.msgLenLo = s.msgLenLo ∧ t.msgLenHi = s.msgLenHi ∧ t.params = s.params
        ∧ t.inputs = s.inputs ∧ t.reads = s.reads ∧ ∀ a : Nat, memRead t.msgbuf a = memRead s.msgbuf a)
      ∧ (i ≠ .sm4KeyexpEnc → i ≠ .sm4KeyexpDec →
          t.rk = s.rk ∧ t.status.rkv = s.status.rkv ∧ t.status.rkdir = s.status.rkdir)
      ∧ (i ≠ .sm4Crypt → i ≠ .sm4Crypt4 → t.bout = s.bout)
      ∧ (i = .sm4Crypt → ∀ l : Fin 4, l ≠ 0 → t.bout.get l = s.bout.get l)
      ∧ (i ≠ .sm3Hash → i ≠ .sm3HashAuto → t.digest = s.digest ∧ t.status.par = s.status.par)

/-- R75 (its reads), R53: a command depends on its operands alone. Two states that agree on them give the same fault, or
the same error code and, on success, the same results. -/
def Obligations.CommandReadsOnlyOperands : Prop :=
  ∀ (i : Instr) (s u : State), sameOperands i s u →
    match exec i s, exec i u with
    | .next t, .next v => t.status.err = v.status.err ∧ (t.status.err = .none → sameResults i t v)
    | .fault f, .fault g => f = g
    | _, _ => False

/-- R130, R24, R245: in one step of any state, RK, RKV and RKDIR change only by a `sm4.keyexp` command that succeeds, or
by reset. -/
def Obligations.RkIsSnapshot : Prop :=
  ∀ s t : State, step s = .next t →
    (t.rk = s.rk ∧ t.status.rkv = s.status.rkv ∧ t.status.rkdir = s.status.rkdir)
      ∨ s.inputs.head? = some .reset
      ∨ (t.status.err = .none
          ∧ (s.inputs.head? = some (.access (.write 32 0x000 0x00000101))
              ∨ s.inputs.head? = some (.access (.write 32 0x000 0x00000001))))

/-! ## The host's side -/

/-- R21: a host write to a read-only register has no effect, and a read of CMD gives 0 and has no effect. -/
def Obligations.ReadOnlyRegisters : Prop :=
  ∀ (s : State) (rest : List Input),
    (∀ (r : Reg) (v : Word), r.readOnly = true → s.inputs = .access (.write 32 r.offset v) :: rest →
        step s = .next { s with inputs := rest })
      ∧ (s.inputs = .access (.read 32 0x000) :: rest →
          step s = .next { s with inputs := rest, reads := s.reads ++ [.word 0] })

/-- R40, R51: a host write to KEY, BIN or MSG_LEN makes that word defined with the value written, and leaves every other
register as the host reads it. -/
def Obligations.HostWriteThenRead : Prop :=
  ∀ (s : State) (r : Reg) (v : Word) (rest : List Input), r.readWrite = true →
    s.inputs = .access (.write 32 r.offset v) :: rest →
      ∃ t : State, step s = .next t ∧ t.inputs = rest ∧ t.readReg r = .ok v
        ∧ (∀ q : Reg, q ≠ r → t.readReg q = s.readReg q) ∧ t.msgbuf = s.msgbuf

/-- R40, R59, R212: a host read of a register gives its word and changes nothing else; of a ⊥ register it is the model
fault; CMD, STATUS and CAP are never ⊥. A host read of a MSGBUF byte gives the byte when it is defined and is the model
fault when it is ⊥. That such a read is an access of its own, and is refused at an address MSGBUF does not have, is the
model's choice (log entry 7). -/
def Obligations.HostReadOutcome : Prop :=
  ∀ (s : State) (rest : List Input),
    (∀ r : Reg, s.inputs = .access (.read 32 r.offset) :: rest →
        (∀ v : Word, s.readReg r = .ok v → step s = .next { s with inputs := rest, reads := s.reads ++ [.word v] })
          ∧ ((∀ v : Word, s.readReg r ≠ .ok v) → step s = .fault .unwrittenRead)
          ∧ ((r = .cmd ∨ r = .status ∨ r = .cap) → ∃ v : Word, s.readReg r = .ok v))
      ∧ ∀ a : Nat, s.inputs = .access (.readMsg a) :: rest →
          (∀ b : Byte, a < 2 ^ 64 → memRead s.msgbuf a = some b →
              step s = .next { s with inputs := rest, reads := s.reads ++ [.byte b] })
            ∧ (a < 2 ^ 64 → memRead s.msgbuf a = none → step s = .fault .unwrittenRead)
            ∧ (2 ^ 64 ≤ a → step s = .refused .outsideMsgbuf)

/-- R53: a host write of MSGBUF bytes inside the address space stores them at its addresses, leaves every other byte and
everything else as it was, and keeps the canonical form. That a write past the end of MSGBUF is refused is the model's
choice (log entry 7), and so is what a write of zero bytes does, of which R53 does not speak: it stores nothing up to and
including address 2^64, and is refused above it (log entry 18). -/
def Obligations.MsgbufWriteThenRead : Prop :=
  ∀ (s : State) (a : Nat) (bs : List Byte) (rest : List Input), s.inputs = .access (.writeMsg a bs) :: rest →
    (a + bs.length ≤ 2 ^ 64 →
        ∃ m : List Host.Cell, step s = .next { s with inputs := rest, msgbuf := m }
          ∧ (∀ (k : Nat) (h : k < bs.length), memRead m (a + k) = some bs[k])
          ∧ (∀ x : Nat, x < a ∨ a + bs.length ≤ x → memRead m x = memRead s.msgbuf x)
          ∧ (memWf s.msgbuf = true → memWf m = true))
      ∧ (2 ^ 64 < a + bs.length → step s = .refused .outsideMsgbuf)

/-- R52, R213: of the register accesses, the host API's calls and the reset event, the inputs that are refused are exactly
the register accesses rule R52 does not allow and the calls with a key or block argument that is not 16 bytes long. (The
MSGBUF accesses are in `HostReadOutcome` and `MsgbufWriteThenRead`.) -/
def Obligations.MeaninglessAccessesRefused : Prop :=
  ∀ (s : State) (x : Input) (rest : List Input), s.inputs = x :: rest →
    (∀ a : Nat, x ≠ .access (.readMsg a)) → (∀ (a : Nat) (bs : List Byte), x ≠ .access (.writeMsg a bs)) →
      ((∃ r : Refusal, step s = .refused r)
        ↔ (∃ width off : Nat, (x = .access (.read width off) ∨ ∃ v : Word, x = .access (.write width off v))
              ∧ ¬ (width = 32 ∧ off % 4 = 0 ∧ off < 0x200 ∧ reservedOff off = false))
          ∨ (∃ k : List Byte, k.length ≠ 16
              ∧ (x = .pseudo (.setkey k) ∨ (∃ l : Fin 4, x = .pseudo (.setblk l k))
                  ∨ (∃ e w : Bool, x = .pseudo (.expandKey k e w)) ∨ x = .pseudo (.transformBlock k))))

/-- R77, R78: the accesses that every mnemonic and call of the host API stands for, in order, and where a run of each call
ends: the operands in place, the results in the registers and given to the host in order, nothing else changed, and the
host's program going on after it. The spec gives no step count, and the statement names none (log entry 8). A message of
2^64 bytes or more is left out: the spec gives its length no words (log entry 17). -/
def Obligations.HostApiCalls : Prop :=
  (let key (k : List Byte) : List Access :=
     [.write 32 0x020 (be32at k 0), .write 32 0x024 (be32at k 4), .write 32 0x028 (be32at k 8),
       .write 32 0x02C (be32at k 12)]
   let blk (l : Nat) (p : List Byte) : List Access :=
     [.write 32 (0x100 + 16 * l) (be32at p 0), .write 32 (0x104 + 16 * l) (be32at p 4),
       .write 32 (0x108 + 16 * l) (be32at p 8), .write 32 (0x10C + 16 * l) (be32at p 12)]
   let out (l : Nat) : List Access :=
     [.read 32 (0x140 + 16 * l), .read 32 (0x144 + 16 * l), .read 32 (0x148 + 16 * l), .read 32 (0x14C + 16 * l)]
   let msg (m : List Byte) : List Access :=
     [.writeMsg 0 m, .write 32 0x010 (BitVec.ofNat 32 (m.length % 2 ^ 32)),
       .write 32 0x014 (BitVec.ofNat 32 (m.length / 2 ^ 32))]
   let digest : List Access :=
     [.read 32 0x180, .read 32 0x184, .read 32 0x188, .read 32 0x18C, .read 32 0x190, .read 32 0x194, .read 32 0x198,
       .read 32 0x19C]
   let rks : List Access := (List.range 32).map fun i => .read 32 (0x080 + 4 * i)
   (∀ i : Instr, Pseudo.expand (.command i) = .ok [.write 32 0x000 (encode i)])
     ∧ (∀ c : Word, Pseudo.expand (.word c) = .ok [.write 32 0x000 c])
     ∧ (∀ k : List Byte, k.length = 16 → Pseudo.expand (.setkey k) = .ok (key k))
     ∧ (∀ (l : Fin 4) (p : List Byte), p.length = 16 → Pseudo.expand (.setblk l p) = .ok (blk l.val p))
     ∧ (∀ l : Fin 4, Pseudo.expand (.getblk l) = .ok (out l.val))
     ∧ (∀ m : List Byte, m.length < 2 ^ 64 → Pseudo.expand (.setmsg m) = .ok (msg m))
     ∧ Pseudo.expand .getdigest = .ok digest
     ∧ (∀ (k : List Byte) (e w : Bool), k.length = 16 →
         Pseudo.expand (.expandKey k e w)
           = .ok (key k ++ [.write 32 0x000 (if e then 0x00000101 else 0x00000001)] ++ (if w then rks else [])))
     ∧ (∀ p : List Byte, p.length = 16 →
         Pseudo.expand (.transformBlock p) = .ok (blk 0 p ++ [.write 32 0x000 0x00000002] ++ out 0))
     ∧ ∀ m : List Byte, m.length < 2 ^ 64 →
         Pseudo.expand (.hashSm3 m) = .ok (msg m ++ [.write 32 0x000 0x00000010] ++ digest))
    ∧ ∀ (s : State) (rest : List Input),
        (∀ k : List Byte, k.length = 16 →
            (s.setInputs (.pseudo (.setkey k) :: rest)).runsTo
              { s with key := (pack16 k).map RegWord.of, inputs := rest })
          ∧ (∀ (l : Fin 4) (p : List Byte), p.length = 16 →
              (s.setInputs (.pseudo (.setblk l p) :: rest)).runsTo
                { s with bin := s.bin.set l ((pack16 p).map RegWord.of), inputs := rest })
          ∧ (∀ l : Fin 4, (∀ w : Fin 4, ((s.bout.get l).get w).written = true) →
              (s.setInputs (.pseudo (.getblk l) :: rest)).runsTo
                { s with
                  inputs := rest
                  reads := s.reads ++ (s.bout.get l).toList.map fun c => .word c.val })
          ∧ (∀ m : List Byte, m.length < 2 ^ 64 →
              let t := { s with
                msgbuf := memWriteBytes s.msgbuf 0 m
                msgLenLo := RegWord.of (BitVec.ofNat 32 (m.length % 2 ^ 32))
                msgLenHi := RegWord.of (BitVec.ofNat 32 (m.length / 2 ^ 32))
                inputs := rest }
              (s.setInputs (.pseudo (.setmsg m) :: rest)).runsTo t ∧ t.HoldsMessage m)
          ∧ ((∀ k : Fin 8, (s.digest.get k).written = true) →
              (s.setInputs (.pseudo .getdigest :: rest)).runsTo
                { s with
                  inputs := rest
                  reads := s.reads ++ s.digest.toList.map fun c => .word c.val })
          ∧ (∀ (k : List Byte) (e w : Bool), k.length = 16 →
              let rks := if e then roundKeysEnc (pack16 k) else roundKeysDec (pack16 k)
              (s.setInputs (.pseudo (.expandKey k e w) :: rest)).runsTo
                { s with
                  key := (pack16 k).map RegWord.of
                  rk := rks.map RegWord.of
                  status := { s.status with rkv := true, rkdir := e, err := .none }
                  inputs := rest
                  reads := s.reads ++ if w then rks.toList.map .word else [] })
          ∧ (∀ p : List Byte, p.length = 16 → s.status.rkv = true → s.RkWritten →
              let c := sm4Words (pack16 p) (s.rk.map RegWord.val)
              (s.setInputs (.pseudo (.transformBlock p) :: rest)).runsTo
                { s with
                  bin := s.bin.set 0 ((pack16 p).map RegWord.of)
                  bout := s.bout.set 0 (c.map RegWord.of)
                  status := { s.status with err := .none }
                  inputs := rest
                  reads := s.reads ++ c.toList.map .word })
          ∧ ∀ m : List Byte, m.length < 2 ^ 64 →
              (s.setInputs (.pseudo (.hashSm3 m) :: rest)).runsTo
                { s with
                  msgbuf := memWriteBytes s.msgbuf 0 m
                  msgLenLo := RegWord.of (BitVec.ofNat 32 (m.length % 2 ^ 32))
                  msgLenHi := RegWord.of (BitVec.ofNat 32 (m.length / 2 ^ 32))
                  digest := (hseq m).map RegWord.of
                  status := { s.status with par := false, err := .none }
                  inputs := rest
                  reads := s.reads ++ (hseq m).toList.map .word }

/-! ## Reset and the invariant -/

/-- R241: what reset leaves. -/
def Obligations.ResetLeaves : Prop :=
  State.reset.status.rkv = false ∧ State.reset.status.rkdir = false ∧ State.reset.status.par = false
    ∧ State.reset.status.err = .none ∧ State.reset.status.toWord = 0
    ∧ State.reset.capWord = (if Config.hasX4 then 1 else 0) ∧ State.reset.readReg .cmd = .ok 0
    ∧ (∀ r : Reg, r ≠ .cmd → r ≠ .status → r ≠ .cap → State.reset.readReg r = .error .unwrittenRead)
    ∧ ∀ a : Nat, memRead State.reset.msgbuf a = none

/-- R240: the reset event puts the block, in whatever state it is, in the state `State.reset` gives. That it makes every
MSGBUF byte ⊥ is the model's choice (log entry 5), and so is that the parameters, the rest of the host's program and what
the host has read stay (log entries 3 and 4). -/
def Obligations.ResetEvent : Prop :=
  ∀ (s : State) (rest : List Input), s.inputs = .reset :: rest →
    step s = .next { State.reset with params := s.params, inputs := rest, reads := s.reads }

/-- R241: the invariant of the block holds at reset. Its clause that a ⊥ word keeps the value 0 under its mark is the
model's choice (log entry 2); the spec gives a ⊥ word no value. -/
def Obligations.InvariantAtReset : Prop := State.reset.Inv

/-- R24-R26, R28, R31, R33, R40, R53: every step from every state that meets the invariant keeps it: MSGBUF stays
canonical, RK is whole and RKV says so, RKDIR needs RKV, BOUT lanes and DIGEST are whole, and a ⊥ word stays as reset left
it (that its value under the mark is 0 is the model's choice, log entry 2). -/
def Obligations.InvariantKept : Prop :=
  ∀ s t : State, s.Inv → step s = .next t → t.Inv

/-- R27: CAP is X4 in bit 0 and 0 elsewhere, it is P_HAS_X4 after reset, and nothing writes it or the other
parameters. -/
def Obligations.CapIsConstant : Prop :=
  State.reset.readReg .cap = .ok (BitVec.setWidth 32 (BitVec.ofBool Config.hasX4))
    ∧ (∀ s : State, s.readReg .cap = .ok (BitVec.setWidth 32 (BitVec.ofBool s.params.hasX4)))
    ∧ ∀ s t : State, step s = .next t → t.params = s.params
end

