-- ==== Sys2Proof/Laws/State.lean ====
section
/-! SUPPORT. The small laws of the state: one lemma per field per update, so that no later proof unfolds a record update,
and the laws of the tuples. -/

namespace Sys2Proof.Machine

@[simp] theorem State.setErr_params (s : State) (e : ErrCode) : (s.setErr e).params = s.params := rfl
@[simp] theorem State.setErr_key (s : State) (e : ErrCode) : (s.setErr e).key = s.key := rfl
@[simp] theorem State.setErr_rk (s : State) (e : ErrCode) : (s.setErr e).rk = s.rk := rfl
@[simp] theorem State.setErr_status (s : State) (e : ErrCode) : (s.setErr e).status = { s.status with err := e } := rfl
@[simp] theorem State.setErr_bin (s : State) (e : ErrCode) : (s.setErr e).bin = s.bin := rfl
@[simp] theorem State.setErr_bout (s : State) (e : ErrCode) : (s.setErr e).bout = s.bout := rfl
@[simp] theorem State.setErr_msgLenLo (s : State) (e : ErrCode) : (s.setErr e).msgLenLo = s.msgLenLo := rfl
@[simp] theorem State.setErr_msgLenHi (s : State) (e : ErrCode) : (s.setErr e).msgLenHi = s.msgLenHi := rfl
@[simp] theorem State.setErr_digest (s : State) (e : ErrCode) : (s.setErr e).digest = s.digest := rfl
@[simp] theorem State.setErr_msgbuf (s : State) (e : ErrCode) : (s.setErr e).msgbuf = s.msgbuf := rfl
@[simp] theorem State.setErr_inputs (s : State) (e : ErrCode) : (s.setErr e).inputs = s.inputs := rfl
@[simp] theorem State.setErr_reads (s : State) (e : ErrCode) : (s.setErr e).reads = s.reads := rfl

@[simp] theorem State.setRoundKeysValid_params (s : State) (d : Bool) : (s.setRoundKeysValid d).params = s.params := rfl
@[simp] theorem State.setRoundKeysValid_key (s : State) (d : Bool) : (s.setRoundKeysValid d).key = s.key := rfl
@[simp] theorem State.setRoundKeysValid_rk (s : State) (d : Bool) : (s.setRoundKeysValid d).rk = s.rk := rfl
@[simp] theorem State.setRoundKeysValid_status (s : State) (d : Bool) : (s.setRoundKeysValid d).status = { s.status with rkv := true, rkdir := d } := rfl
@[simp] theorem State.setRoundKeysValid_bin (s : State) (d : Bool) : (s.setRoundKeysValid d).bin = s.bin := rfl
@[simp] theorem State.setRoundKeysValid_bout (s : State) (d : Bool) : (s.setRoundKeysValid d).bout = s.bout := rfl
@[simp] theorem State.setRoundKeysValid_msgLenLo (s : State) (d : Bool) : (s.setRoundKeysValid d).msgLenLo = s.msgLenLo := rfl
@[simp] theorem State.setRoundKeysValid_msgLenHi (s : State) (d : Bool) : (s.setRoundKeysValid d).msgLenHi = s.msgLenHi := rfl
@[simp] theorem State.setRoundKeysValid_digest (s : State) (d : Bool) : (s.setRoundKeysValid d).digest = s.digest := rfl
@[simp] theorem State.setRoundKeysValid_msgbuf (s : State) (d : Bool) : (s.setRoundKeysValid d).msgbuf = s.msgbuf := rfl
@[simp] theorem State.setRoundKeysValid_inputs (s : State) (d : Bool) : (s.setRoundKeysValid d).inputs = s.inputs := rfl
@[simp] theorem State.setRoundKeysValid_reads (s : State) (d : Bool) : (s.setRoundKeysValid d).reads = s.reads := rfl

@[simp] theorem State.setPar_params (s : State) (b : Bool) : (s.setPar b).params = s.params := rfl
@[simp] theorem State.setPar_key (s : State) (b : Bool) : (s.setPar b).key = s.key := rfl
@[simp] theorem State.setPar_rk (s : State) (b : Bool) : (s.setPar b).rk = s.rk := rfl
@[simp] theorem State.setPar_status (s : State) (b : Bool) : (s.setPar b).status = { s.status with par := b } := rfl
@[simp] theorem State.setPar_bin (s : State) (b : Bool) : (s.setPar b).bin = s.bin := rfl
@[simp] theorem State.setPar_bout (s : State) (b : Bool) : (s.setPar b).bout = s.bout := rfl
@[simp] theorem State.setPar_msgLenLo (s : State) (b : Bool) : (s.setPar b).msgLenLo = s.msgLenLo := rfl
@[simp] theorem State.setPar_msgLenHi (s : State) (b : Bool) : (s.setPar b).msgLenHi = s.msgLenHi := rfl
@[simp] theorem State.setPar_digest (s : State) (b : Bool) : (s.setPar b).digest = s.digest := rfl
@[simp] theorem State.setPar_msgbuf (s : State) (b : Bool) : (s.setPar b).msgbuf = s.msgbuf := rfl
@[simp] theorem State.setPar_inputs (s : State) (b : Bool) : (s.setPar b).inputs = s.inputs := rfl
@[simp] theorem State.setPar_reads (s : State) (b : Bool) : (s.setPar b).reads = s.reads := rfl

@[simp] theorem State.writeRk_params (s : State) (v : Vector Word 32) : (s.writeRk v).params = s.params := rfl
@[simp] theorem State.writeRk_key (s : State) (v : Vector Word 32) : (s.writeRk v).key = s.key := rfl
@[simp] theorem State.writeRk_rk (s : State) (v : Vector Word 32) : (s.writeRk v).rk = v.map RegWord.of := rfl
@[simp] theorem State.writeRk_status (s : State) (v : Vector Word 32) : (s.writeRk v).status = s.status := rfl
@[simp] theorem State.writeRk_bin (s : State) (v : Vector Word 32) : (s.writeRk v).bin = s.bin := rfl
@[simp] theorem State.writeRk_bout (s : State) (v : Vector Word 32) : (s.writeRk v).bout = s.bout := rfl
@[simp] theorem State.writeRk_msgLenLo (s : State) (v : Vector Word 32) : (s.writeRk v).msgLenLo = s.msgLenLo := rfl
@[simp] theorem State.writeRk_msgLenHi (s : State) (v : Vector Word 32) : (s.writeRk v).msgLenHi = s.msgLenHi := rfl
@[simp] theorem State.writeRk_digest (s : State) (v : Vector Word 32) : (s.writeRk v).digest = s.digest := rfl
@[simp] theorem State.writeRk_msgbuf (s : State) (v : Vector Word 32) : (s.writeRk v).msgbuf = s.msgbuf := rfl
@[simp] theorem State.writeRk_inputs (s : State) (v : Vector Word 32) : (s.writeRk v).inputs = s.inputs := rfl
@[simp] theorem State.writeRk_reads (s : State) (v : Vector Word 32) : (s.writeRk v).reads = s.reads := rfl

@[simp] theorem State.writeBout_params (s : State) (l : Fin 4) (q : Quad Word) : (s.writeBout l q).params = s.params := rfl
@[simp] theorem State.writeBout_key (s : State) (l : Fin 4) (q : Quad Word) : (s.writeBout l q).key = s.key := rfl
@[simp] theorem State.writeBout_rk (s : State) (l : Fin 4) (q : Quad Word) : (s.writeBout l q).rk = s.rk := rfl
@[simp] theorem State.writeBout_status (s : State) (l : Fin 4) (q : Quad Word) : (s.writeBout l q).status = s.status := rfl
@[simp] theorem State.writeBout_bin (s : State) (l : Fin 4) (q : Quad Word) : (s.writeBout l q).bin = s.bin := rfl
@[simp] theorem State.writeBout_bout (s : State) (l : Fin 4) (q : Quad Word) : (s.writeBout l q).bout = s.bout.set l (q.map RegWord.of) := rfl
@[simp] theorem State.writeBout_msgLenLo (s : State) (l : Fin 4) (q : Quad Word) : (s.writeBout l q).msgLenLo = s.msgLenLo := rfl
@[simp] theorem State.writeBout_msgLenHi (s : State) (l : Fin 4) (q : Quad Word) : (s.writeBout l q).msgLenHi = s.msgLenHi := rfl
@[simp] theorem State.writeBout_digest (s : State) (l : Fin 4) (q : Quad Word) : (s.writeBout l q).digest = s.digest := rfl
@[simp] theorem State.writeBout_msgbuf (s : State) (l : Fin 4) (q : Quad Word) : (s.writeBout l q).msgbuf = s.msgbuf := rfl
@[simp] theorem State.writeBout_inputs (s : State) (l : Fin 4) (q : Quad Word) : (s.writeBout l q).inputs = s.inputs := rfl
@[simp] theorem State.writeBout_reads (s : State) (l : Fin 4) (q : Quad Word) : (s.writeBout l q).reads = s.reads := rfl

@[simp] theorem State.writeBoutAll_params (s : State) (q : Quad (Quad Word)) : (s.writeBoutAll q).params = s.params := rfl
@[simp] theorem State.writeBoutAll_key (s : State) (q : Quad (Quad Word)) : (s.writeBoutAll q).key = s.key := rfl
@[simp] theorem State.writeBoutAll_rk (s : State) (q : Quad (Quad Word)) : (s.writeBoutAll q).rk = s.rk := rfl
@[simp] theorem State.writeBoutAll_status (s : State) (q : Quad (Quad Word)) : (s.writeBoutAll q).status = s.status := rfl
@[simp] theorem State.writeBoutAll_bin (s : State) (q : Quad (Quad Word)) : (s.writeBoutAll q).bin = s.bin := rfl
@[simp] theorem State.writeBoutAll_bout (s : State) (q : Quad (Quad Word)) : (s.writeBoutAll q).bout = q.map fun b => b.map RegWord.of := rfl
@[simp] theorem State.writeBoutAll_msgLenLo (s : State) (q : Quad (Quad Word)) : (s.writeBoutAll q).msgLenLo = s.msgLenLo := rfl
@[simp] theorem State.writeBoutAll_msgLenHi (s : State) (q : Quad (Quad Word)) : (s.writeBoutAll q).msgLenHi = s.msgLenHi := rfl
@[simp] theorem State.writeBoutAll_digest (s : State) (q : Quad (Quad Word)) : (s.writeBoutAll q).digest = s.digest := rfl
@[simp] theorem State.writeBoutAll_msgbuf (s : State) (q : Quad (Quad Word)) : (s.writeBoutAll q).msgbuf = s.msgbuf := rfl
@[simp] theorem State.writeBoutAll_inputs (s : State) (q : Quad (Quad Word)) : (s.writeBoutAll q).inputs = s.inputs := rfl
@[simp] theorem State.writeBoutAll_reads (s : State) (q : Quad (Quad Word)) : (s.writeBoutAll q).reads = s.reads := rfl

@[simp] theorem State.writeDigest_params (s : State) (v : Oct Word) : (s.writeDigest v).params = s.params := rfl
@[simp] theorem State.writeDigest_key (s : State) (v : Oct Word) : (s.writeDigest v).key = s.key := rfl
@[simp] theorem State.writeDigest_rk (s : State) (v : Oct Word) : (s.writeDigest v).rk = s.rk := rfl
@[simp] theorem State.writeDigest_status (s : State) (v : Oct Word) : (s.writeDigest v).status = s.status := rfl
@[simp] theorem State.writeDigest_bin (s : State) (v : Oct Word) : (s.writeDigest v).bin = s.bin := rfl
@[simp] theorem State.writeDigest_bout (s : State) (v : Oct Word) : (s.writeDigest v).bout = s.bout := rfl
@[simp] theorem State.writeDigest_msgLenLo (s : State) (v : Oct Word) : (s.writeDigest v).msgLenLo = s.msgLenLo := rfl
@[simp] theorem State.writeDigest_msgLenHi (s : State) (v : Oct Word) : (s.writeDigest v).msgLenHi = s.msgLenHi := rfl
@[simp] theorem State.writeDigest_digest (s : State) (v : Oct Word) : (s.writeDigest v).digest = v.map RegWord.of := rfl
@[simp] theorem State.writeDigest_msgbuf (s : State) (v : Oct Word) : (s.writeDigest v).msgbuf = s.msgbuf := rfl
@[simp] theorem State.writeDigest_inputs (s : State) (v : Oct Word) : (s.writeDigest v).inputs = s.inputs := rfl
@[simp] theorem State.writeDigest_reads (s : State) (v : Oct Word) : (s.writeDigest v).reads = s.reads := rfl

@[simp] theorem State.writeMsg_params (s : State) (a : Nat) (bs : List Byte) : (s.writeMsg a bs).params = s.params := rfl
@[simp] theorem State.writeMsg_key (s : State) (a : Nat) (bs : List Byte) : (s.writeMsg a bs).key = s.key := rfl
@[simp] theorem State.writeMsg_rk (s : State) (a : Nat) (bs : List Byte) : (s.writeMsg a bs).rk = s.rk := rfl
@[simp] theorem State.writeMsg_status (s : State) (a : Nat) (bs : List Byte) : (s.writeMsg a bs).status = s.status := rfl
@[simp] theorem State.writeMsg_bin (s : State) (a : Nat) (bs : List Byte) : (s.writeMsg a bs).bin = s.bin := rfl
@[simp] theorem State.writeMsg_bout (s : State) (a : Nat) (bs : List Byte) : (s.writeMsg a bs).bout = s.bout := rfl
@[simp] theorem State.writeMsg_msgLenLo (s : State) (a : Nat) (bs : List Byte) : (s.writeMsg a bs).msgLenLo = s.msgLenLo := rfl
@[simp] theorem State.writeMsg_msgLenHi (s : State) (a : Nat) (bs : List Byte) : (s.writeMsg a bs).msgLenHi = s.msgLenHi := rfl
@[simp] theorem State.writeMsg_digest (s : State) (a : Nat) (bs : List Byte) : (s.writeMsg a bs).digest = s.digest := rfl
@[simp] theorem State.writeMsg_msgbuf (s : State) (a : Nat) (bs : List Byte) : (s.writeMsg a bs).msgbuf = memWriteBytes s.msgbuf a bs := rfl
@[simp] theorem State.writeMsg_inputs (s : State) (a : Nat) (bs : List Byte) : (s.writeMsg a bs).inputs = s.inputs := rfl
@[simp] theorem State.writeMsg_reads (s : State) (a : Nat) (bs : List Byte) : (s.writeMsg a bs).reads = s.reads := rfl

@[simp] theorem State.pushRead_params (s : State) (v : ReadBack) : (s.pushRead v).params = s.params := rfl
@[simp] theorem State.pushRead_key (s : State) (v : ReadBack) : (s.pushRead v).key = s.key := rfl
@[simp] theorem State.pushRead_rk (s : State) (v : ReadBack) : (s.pushRead v).rk = s.rk := rfl
@[simp] theorem State.pushRead_status (s : State) (v : ReadBack) : (s.pushRead v).status = s.status := rfl
@[simp] theorem State.pushRead_bin (s : State) (v : ReadBack) : (s.pushRead v).bin = s.bin := rfl
@[simp] theorem State.pushRead_bout (s : State) (v : ReadBack) : (s.pushRead v).bout = s.bout := rfl
@[simp] theorem State.pushRead_msgLenLo (s : State) (v : ReadBack) : (s.pushRead v).msgLenLo = s.msgLenLo := rfl
@[simp] theorem State.pushRead_msgLenHi (s : State) (v : ReadBack) : (s.pushRead v).msgLenHi = s.msgLenHi := rfl
@[simp] theorem State.pushRead_digest (s : State) (v : ReadBack) : (s.pushRead v).digest = s.digest := rfl
@[simp] theorem State.pushRead_msgbuf (s : State) (v : ReadBack) : (s.pushRead v).msgbuf = s.msgbuf := rfl
@[simp] theorem State.pushRead_inputs (s : State) (v : ReadBack) : (s.pushRead v).inputs = s.inputs := rfl
@[simp] theorem State.pushRead_reads (s : State) (v : ReadBack) : (s.pushRead v).reads = s.reads ++ [v] := rfl

@[simp] theorem State.setInputs_params (s : State) (is : List Input) : (s.setInputs is).params = s.params := rfl
@[simp] theorem State.setInputs_key (s : State) (is : List Input) : (s.setInputs is).key = s.key := rfl
@[simp] theorem State.setInputs_rk (s : State) (is : List Input) : (s.setInputs is).rk = s.rk := rfl
@[simp] theorem State.setInputs_status (s : State) (is : List Input) : (s.setInputs is).status = s.status := rfl
@[simp] theorem State.setInputs_bin (s : State) (is : List Input) : (s.setInputs is).bin = s.bin := rfl
@[simp] theorem State.setInputs_bout (s : State) (is : List Input) : (s.setInputs is).bout = s.bout := rfl
@[simp] theorem State.setInputs_msgLenLo (s : State) (is : List Input) : (s.setInputs is).msgLenLo = s.msgLenLo := rfl
@[simp] theorem State.setInputs_msgLenHi (s : State) (is : List Input) : (s.setInputs is).msgLenHi = s.msgLenHi := rfl
@[simp] theorem State.setInputs_digest (s : State) (is : List Input) : (s.setInputs is).digest = s.digest := rfl
@[simp] theorem State.setInputs_msgbuf (s : State) (is : List Input) : (s.setInputs is).msgbuf = s.msgbuf := rfl
@[simp] theorem State.setInputs_inputs (s : State) (is : List Input) : (s.setInputs is).inputs = is := rfl
@[simp] theorem State.setInputs_reads (s : State) (is : List Input) : (s.setInputs is).reads = s.reads := rfl

/-- A host write changes only KEY, BIN and MSG_LEN (R21, R40). -/
theorem State.writeReg_frame (s : State) (r : Reg) (v : Word) :
    (s.writeReg r v).params = s.params ∧ (s.writeReg r v).rk = s.rk ∧ (s.writeReg r v).status = s.status
      ∧ (s.writeReg r v).bout = s.bout ∧ (s.writeReg r v).digest = s.digest ∧ (s.writeReg r v).msgbuf = s.msgbuf
      ∧ (s.writeReg r v).inputs = s.inputs ∧ (s.writeReg r v).reads = s.reads := by
  cases r <;> exact ⟨rfl, rfl, rfl, rfl, rfl, rfl, rfl, rfl⟩

@[simp] theorem State.writeReg_params (s : State) (r : Reg) (v : Word) : (s.writeReg r v).params = s.params := by
  cases r <;> rfl
@[simp] theorem State.writeReg_rk (s : State) (r : Reg) (v : Word) : (s.writeReg r v).rk = s.rk := by
  cases r <;> rfl
@[simp] theorem State.writeReg_status (s : State) (r : Reg) (v : Word) : (s.writeReg r v).status = s.status := by
  cases r <;> rfl
@[simp] theorem State.writeReg_bout (s : State) (r : Reg) (v : Word) : (s.writeReg r v).bout = s.bout := by
  cases r <;> rfl
@[simp] theorem State.writeReg_digest (s : State) (r : Reg) (v : Word) : (s.writeReg r v).digest = s.digest := by
  cases r <;> rfl
@[simp] theorem State.writeReg_msgbuf (s : State) (r : Reg) (v : Word) : (s.writeReg r v).msgbuf = s.msgbuf := by
  cases r <;> rfl
@[simp] theorem State.writeReg_inputs (s : State) (r : Reg) (v : Word) : (s.writeReg r v).inputs = s.inputs := by
  cases r <;> rfl
@[simp] theorem State.writeReg_reads (s : State) (r : Reg) (v : Word) : (s.writeReg r v).reads = s.reads := by
  cases r <;> rfl

@[simp] theorem RegWord.of_written (v : Word) : (RegWord.of v).written = true := rfl
@[simp] theorem RegWord.of_val (v : Word) : (RegWord.of v).val = v := rfl
@[simp] theorem RegWord.bottom_written : RegWord.bottom.written = false := rfl
@[simp] theorem RegWord.bottom_val : RegWord.bottom.val = 0 := rfl

/-- A defined word is the word of its value. -/
theorem RegWord.eq_of_written {c : RegWord} (h : c.written = true) : c = RegWord.of c.val := by
  cases c; cases h; rfl

@[simp] theorem Quad.get_set_self {α : Type} (q : Quad α) (i : Fin 4) (x : α) : (q.set i x).get i = x := by
  fin_cases i <;> rfl

theorem Quad.get_set_of_ne {α : Type} (q : Quad α) {i j : Fin 4} (x : α) (h : j ≠ i) : (q.set i x).get j = q.get j := by
  fin_cases i <;> fin_cases j <;> first | exact absurd rfl h | rfl

@[simp] theorem Quad.get_map {α β : Type} (f : α → β) (q : Quad α) (i : Fin 4) : (q.map f).get i = f (q.get i) := by
  fin_cases i <;> rfl

@[simp] theorem Quad.get_fill {α : Type} (x : α) (i : Fin 4) : (Quad.fill x).get i = x := by
  fin_cases i <;> rfl

@[simp] theorem Quad.reverse_reverse {α : Type} (q : Quad α) : q.reverse.reverse = q := rfl

@[simp] theorem Oct.get_map {α β : Type} (f : α → β) (o : Oct α) (i : Fin 8) : (o.map f).get i = f (o.get i) := by
  fin_cases i <;> rfl

@[simp] theorem Oct.get_fill {α : Type} (x : α) (i : Fin 8) : (Oct.fill x).get i = x := by
  fin_cases i <;> rfl

@[simp] theorem Oct.get_xor (p q : Oct Word) (i : Fin 8) : (p.xor q).get i = p.get i ^^^ q.get i := by
  fin_cases i <;> rfl

/-- Four-tuples with equal elements are equal. -/
theorem Quad.ext_get {α : Type} {p q : Quad α} (h : ∀ i, p.get i = q.get i) : p = q := by
  cases p; cases q
  have h0 := h 0; have h1 := h 1; have h2 := h 2; have h3 := h 3
  simp only [Quad.get] at h0 h1 h2 h3
  simp [*]

/-- Eight-tuples with equal elements are equal. -/
theorem Oct.ext_get {α : Type} {p q : Oct α} (h : ∀ i, p.get i = q.get i) : p = q := by
  cases p; cases q
  have h0 := h 0; have h1 := h 1; have h2 := h 2; have h3 := h 3
  have h4 := h 4; have h5 := h 5; have h6 := h 6; have h7 := h 7
  simp only [Oct.get] at h0 h1 h2 h3 h4 h5 h6 h7
  simp [*]

end Sys2Proof.Machine
end

