-- ==== Sys2Proof/Laws/Memory.lean ====
section
/-! SUPPORT. The laws of MSGBUF: a read after a write, the canonical form every memory operation keeps, and what the
engine's reading of a message can answer. -/

namespace Sys2Proof.Machine

/-- The only fault is the read of ⊥ (R65). -/
theorem Fault.eq_unwrittenRead (f : Fault) : f = .unwrittenRead := by
  cases f
  rfl

/-- A read at the address just written gives the byte written. -/
@[simp] theorem memRead_memWrite_self (m : List Host.Cell) (a : Nat) (v : Byte) :
    memRead (memWrite m a v) a = some v := by
  induction m with
  | nil => simp [memWrite, memRead]
  | cons c rest ih =>
    obtain ⟨k, b⟩ := c
    unfold memWrite
    split
    · simp [memRead]
    · split
      · simp [memRead]
      · rename_i h1 h2
        simp [memRead, h2, ih]

/-- A write leaves every other address alone. -/
theorem memRead_memWrite_of_ne (m : List Host.Cell) {a x : Nat} (v : Byte) (h : x ≠ a) :
    memRead (memWrite m a v) x = memRead m x := by
  induction m with
  | nil => simp [memWrite, memRead, h]
  | cons c rest ih =>
    obtain ⟨k, b⟩ := c
    unfold memWrite
    split
    · simp [memRead, h]
    · split
      · rename_i _ hk
        subst hk
        simp [memRead, h]
      · simp only [memRead, ih]

/-- What the run of bytes just written reads as, and that every other address is left alone. -/
theorem memRead_memWriteBytes (m : List Host.Cell) (a : Nat) (bs : List Byte) (x : Nat) :
    memRead (memWriteBytes m a bs) x
      = if h : a ≤ x ∧ x < a + bs.length then some (bs[x - a]'(by omega)) else memRead m x := by
  induction bs generalizing m a with
  | nil => simp [memWriteBytes]
  | cons b bs ih =>
    rw [memWriteBytes, ih]
    by_cases hx : x = a
    · subst hx
      simp
    · rw [memRead_memWrite_of_ne _ _ hx]
      by_cases h1 : a + 1 ≤ x ∧ x < a + 1 + bs.length
      · have h2 : a ≤ x ∧ x < a + (b :: bs).length := by simp; omega
        rw [dif_pos h1, dif_pos h2]
        have : x - a = (x - (a + 1)) + 1 := by omega
        simp [this]
      · have h2 : ¬ (a ≤ x ∧ x < a + (b :: bs).length) := by simp; omega
        rw [dif_neg h1, dif_neg h2]

/-- The canonical form, one cell at a time. -/
theorem memWfFrom_cons {lo k : Nat} {b : Byte} {rest : List Host.Cell} :
    memWfFrom lo ((k, b) :: rest) = true ↔ lo ≤ k ∧ k < 2 ^ 64 ∧ memWfFrom (k + 1) rest = true := by
  simp [memWfFrom, and_assoc]

/-- A lower bound may be lowered. -/
theorem memWfFrom_mono {lo lo' : Nat} (h : lo' ≤ lo) {m : List Host.Cell} (hm : memWfFrom lo m = true) :
    memWfFrom lo' m = true := by
  cases m with
  | nil => rfl
  | cons c rest =>
    obtain ⟨k, b⟩ := c
    rw [memWfFrom_cons] at hm ⊢
    exact ⟨by omega, hm.2⟩

/-- Writing a byte inside the address space keeps the canonical form. -/
theorem memWfFrom_memWrite {lo a : Nat} {m : List Host.Cell} (v : Byte) (hm : memWfFrom lo m = true) (hlo : lo ≤ a)
    (ha : a < 2 ^ 64) : memWfFrom lo (memWrite m a v) = true := by
  induction m generalizing lo with
  | nil => simpa [memWrite, memWfFrom] using ⟨hlo, ha⟩
  | cons c rest ih =>
    obtain ⟨k, b⟩ := c
    rw [memWfFrom_cons] at hm
    unfold memWrite
    split
    · rename_i h
      exact memWfFrom_cons.2 ⟨hlo, ha, memWfFrom_cons.2 ⟨h, hm.2⟩⟩
    · split
      · rename_i h
        subst h
        exact memWfFrom_cons.2 ⟨hlo, ha, hm.2.2⟩
      · exact memWfFrom_cons.2 ⟨hm.1, hm.2.1, ih hm.2.2 (by omega)⟩

/-- Writing a byte keeps the canonical form. -/
theorem memWf_memWrite {a : Nat} {m : List Host.Cell} (v : Byte) (hm : memWf m = true) (ha : a < 2 ^ 64) :
    memWf (memWrite m a v) = true :=
  memWfFrom_memWrite v hm (Nat.zero_le a) ha

/-- Writing bytes inside the address space keeps the canonical form. -/
theorem memWf_memWriteBytes {a : Nat} {m : List Host.Cell} (bs : List Byte) (hm : memWf m = true)
    (ha : a + bs.length ≤ 2 ^ 64) : memWf (memWriteBytes m a bs) = true := by
  induction bs generalizing m a with
  | nil => exact hm
  | cons b bs ih =>
    simp only [List.length_cons] at ha
    exact ih (memWf_memWrite b hm (by omega)) (by omega)

/-- The memory at reset has the canonical form. -/
theorem memWf_reset : memWf State.reset.msgbuf = true := rfl

/-- A canonical memory lists nothing below its lower bound. -/
theorem memRead_below {lo x : Nat} {m : List Host.Cell} (hm : memWfFrom lo m = true) (hx : x < lo) :
    memRead m x = none := by
  induction m generalizing lo with
  | nil => rfl
  | cons c rest ih =>
    obtain ⟨k, b⟩ := c
    rw [memWfFrom_cons] at hm
    have : x ≠ k := by omega
    simp only [memRead, this, if_false]
    exact ih hm.2.2 (by omega)

/-- Canonical memories that read alike are the same list. -/
theorem mem_ext {lo : Nat} {m m' : List Host.Cell} (hm : memWfFrom lo m = true) (hm' : memWfFrom lo m' = true)
    (h : ∀ a, memRead m a = memRead m' a) : m = m' := by
  induction m generalizing lo m' with
  | nil =>
    cases m' with
    | nil => rfl
    | cons c rest => have := h c.1; simp [memRead] at this
  | cons c rest ih =>
    obtain ⟨k, b⟩ := c
    rw [memWfFrom_cons] at hm
    cases m' with
    | nil => have := h k; simp [memRead] at this
    | cons c' rest' =>
      obtain ⟨k', b'⟩ := c'
      rw [memWfFrom_cons] at hm'
      have hk : k = k' := by
        by_contra hne
        rcases Nat.lt_or_gt_of_ne hne with hlt | hgt
        · have := h k
          simp [memRead, hne, memRead_below hm'.2.2 (by omega : k < k' + 1)] at this
        · have := h k'
          simp [memRead, Ne.symm hne, memRead_below hm.2.2 (by omega : k' < k + 1)] at this
      subst hk
      have hb := h k
      simp only [memRead, if_true, Option.some.injEq] at hb
      subst hb
      have : rest = rest' := ih hm.2.2 hm'.2.2 fun a => by
        by_cases ha : a = k
        · subst ha
          rw [memRead_below hm.2.2 (by omega), memRead_below hm'.2.2 (by omega)]
        · simpa [memRead, ha] using h a
      rw [this]

/-- Reading a byte answers a value exactly when the byte is defined. -/
theorem msgByte_ok_iff {m : List Host.Cell} {a : Nat} {b : Byte} : msgByte m a = .ok b ↔ memRead m a = some b := by
  unfold msgByte
  split <;> simp_all

/-- What `MemRead` can answer: the bytes of the range, when all of them are defined. -/
theorem msgBytes_ok_iff {m : List Host.Cell} {a n : Nat} {bs : List Byte} :
    msgBytes m a n = .ok bs
      ↔ bs.length = n ∧ ∀ k : Nat, ∀ h : k < bs.length, memRead m (a + k) = some bs[k] := by
  induction n generalizing a bs with
  | zero =>
    simp only [msgBytes, Except.ok.injEq]
    constructor
    · rintro rfl; simp
    · rintro ⟨h, -⟩; exact (List.length_eq_zero_iff.1 h).symm
  | succ n ih =>
    unfold msgBytes
    cases hb : msgByte m a with
    | error f =>
      simp only [reduceCtorEq, false_iff]
      rintro ⟨hl, hk⟩
      have h0 := hk 0 (by omega)
      rw [Nat.add_zero, ← msgByte_ok_iff, hb] at h0
      cases h0
    | ok b =>
      have hb' := msgByte_ok_iff.1 hb
      cases hr : msgBytes m (a + 1) n with
      | error f =>
        simp only [reduceCtorEq, false_iff]
        rintro ⟨hl, hk⟩
        cases bs with
        | nil => simp at hl
        | cons c cs =>
          have : msgBytes m (a + 1) n = .ok cs := ih.2 ⟨by simpa using hl, fun k h => by
            have := hk (k + 1) (by simpa using h)
            rw [show a + (k + 1) = a + 1 + k from by omega] at this
            simpa using this⟩
          rw [hr] at this
          cases this
      | ok cs =>
        have hcs := ih.1 hr
        simp only [Except.ok.injEq]
        constructor
        · rintro rfl
          refine ⟨by simp [hcs.1], fun k h => ?_⟩
          cases k with
          | zero => simpa using hb'
          | succ k =>
            have := hcs.2 k (by simpa using h)
            rw [show a + (k + 1) = a + 1 + k from by omega]
            simpa using this
        · rintro ⟨hl, hk⟩
          cases bs with
          | nil => simp at hl
          | cons d ds =>
            have h0 := hk 0 (by simp)
            simp only [Nat.add_zero, List.getElem_cons_zero, hb', Option.some.injEq] at h0
            have : msgBytes m (a + 1) n = .ok ds := ih.2 ⟨by simpa using hl, fun k h => by
              have := hk (k + 1) (by simpa using h)
              rw [show a + (k + 1) = a + 1 + k from by omega] at this
              simpa using this⟩
            rw [hr, Except.ok.injEq] at this
            rw [h0, this]

/-- `MemRead` raises no fault but the model fault for a ⊥ byte. -/
theorem msgBytes_error {m : List Host.Cell} {a n : Nat} {f : Fault} (_ : msgBytes m a n = .error f) :
    f = .unwrittenRead :=
  f.eq_unwrittenRead

end Sys2Proof.Machine
end

