-- ==== Sys2Proof/Laws/Ops.lean ====
section
/-! SUPPORT. What each shared operation can do, said once: reading cells, reading the operands of a command, ending a
command, and reaching a register. -/

namespace Sys2Proof.Machine

/-- Going on with a read ends in a next state exactly when the read gave a value and the rest went on. -/
theorem withRead_eq_next {α : Type} {r : Except Fault α} {k : α → Result} {t : State} :
    withRead r k = .next t ↔ ∃ a, r = .ok a ∧ k a = .next t := by
  cases r <;> simp [withRead]

/-- Going on with a read ends in a fault exactly when the read raised it, or the rest did. -/
theorem withRead_eq_fault {α : Type} {r : Except Fault α} {k : α → Result} {f : Fault} :
    withRead r k = .fault f ↔ r = .error f ∨ ∃ a, r = .ok a ∧ k a = .fault f := by
  cases r <;> simp [withRead]

/-- Going on with a read ends in a refusal only when the rest does. -/
theorem withRead_eq_refused {α : Type} {r : Except Fault α} {k : α → Result} {x : Refusal} :
    withRead r k = .refused x ↔ ∃ a, r = .ok a ∧ k a = .refused x := by
  cases r <;> simp [withRead]

@[simp] theorem withRead_ok {α : Type} (a : α) (k : α → Result) : withRead (.ok a) k = k a := rfl

@[simp] theorem withRead_error {α : Type} (f : Fault) (k : α → Result) : withRead (.error f) k = .fault f := rfl

/-- Ending a command with an error code only ever gives the next state with that code. -/
@[simp] theorem failWith_eq_next {e : ErrCode} {s t : State} : failWith e s = .next t ↔ s.setErr e = t := by
  simp [failWith]

/-- A successful command only ever gives the next state with ERR = NONE. -/
@[simp] theorem succeed_eq_next {s t : State} : succeed s = .next t ↔ s.setErr .none = t := by
  simp [succeed]

@[simp] theorem RegWord.read_of (v : Word) : (RegWord.of v).read = .ok v := rfl

/-- A register word gives its value exactly when it is defined. -/
theorem RegWord.read_eq_ok {c : RegWord} {v : Word} : c.read = .ok v ↔ c.written = true ∧ c.val = v := by
  unfold RegWord.read
  split <;> simp_all

/-- A register word raises the model fault exactly when it is ⊥. -/
theorem RegWord.read_eq_error {c : RegWord} {f : Fault} :
    c.read = .error f ↔ c.written = false ∧ f = .unwrittenRead := by
  unfold RegWord.read
  cases h : c.written <;> simp [f.eq_unwrittenRead]

/-- Four words are read exactly when all of them are defined. -/
theorem readQuad_eq_ok {q : Quad RegWord} {v : Quad Word} :
    readQuad q = .ok v ↔ (∀ i, (q.get i).written = true) ∧ q.map RegWord.val = v := by
  obtain ⟨⟨a, x⟩, ⟨b, y⟩, ⟨c, z⟩, ⟨d, w⟩⟩ := q
  simp only [Fin.forall_fin_succ, Quad.get, readQuad, RegWord.read, Quad.map]
  cases a <;> cases b <;> cases c <;> cases d <;> simp

/-- Four words raise the model fault exactly when one of them is ⊥. -/
theorem readQuad_eq_error {q : Quad RegWord} {f : Fault} :
    readQuad q = .error f ↔ (∃ i, (q.get i).written = false) ∧ f = .unwrittenRead := by
  obtain ⟨⟨a, x⟩, ⟨b, y⟩, ⟨c, z⟩, ⟨d, w⟩⟩ := q
  simp only [Fin.exists_fin_succ, Quad.get, readQuad, RegWord.read]
  cases a <;> cases b <;> cases c <;> cases d <;> simp

/-- The key is read exactly when all four words of KEY are defined. -/
theorem State.readKey_eq_ok {s : State} {mk : Quad Word} :
    s.readKey = .ok mk ↔ (∀ i, (s.key.get i).written = true) ∧ s.key.map RegWord.val = mk :=
  readQuad_eq_ok

/-- The round keys are read exactly when all 32 words of RK are defined. -/
theorem State.readRk_eq_ok {s : State} {v : Vector Word 32} :
    s.readRk = .ok v ↔ (∀ i : Fin 32, s.rk[i].written = true) ∧ s.rk.map RegWord.val = v := by
  have h : s.rk.toList.all RegWord.written = true ↔ ∀ i : Fin 32, s.rk[i].written = true := by
    rw [List.all_eq_true]
    constructor
    · intro h i
      exact h _ (by simp)
    · intro h c hc
      obtain ⟨i, hi, rfl⟩ := List.getElem_of_mem hc
      have := h ⟨i, by simpa using hi⟩
      simpa using this
  unfold State.readRk
  split <;> simp_all

/-- The round keys raise the model fault exactly when a word of RK is ⊥. -/
theorem State.readRk_eq_error {s : State} {f : Fault} :
    s.readRk = .error f ↔ (∃ i : Fin 32, s.rk[i].written = false) ∧ f = .unwrittenRead := by
  cases h : s.readRk with
  | ok v =>
    have hall := (State.readRk_eq_ok.1 h).1
    simp only [reduceCtorEq, false_iff, not_and, forall_exists_index]
    intro i hi
    rw [hall i] at hi
    cases hi
  | error g =>
    have hne : ¬ ∀ i : Fin 32, s.rk[i].written = true := fun hall => by
      rw [State.readRk_eq_ok.2 ⟨hall, rfl⟩] at h
      cases h
    simp only [not_forall, Bool.not_eq_true] at hne
    simp only [f.eq_unwrittenRead, g.eq_unwrittenRead, and_true, true_iff]
    exact hne

/-- One BIN lane is read exactly when its four words are defined. -/
theorem State.readBin_eq_ok {s : State} {l : Fin 4} {p : Quad Word} :
    s.readBin l = .ok p ↔ (∀ w, ((s.bin.get l).get w).written = true) ∧ (s.bin.get l).map RegWord.val = p :=
  readQuad_eq_ok

/-- One BIN lane raises the model fault exactly when one of its words is ⊥. -/
theorem State.readBin_eq_error {s : State} {l : Fin 4} {f : Fault} :
    s.readBin l = .error f ↔ (∃ w, ((s.bin.get l).get w).written = false) ∧ f = .unwrittenRead :=
  readQuad_eq_error

/-- The four BIN lanes are read exactly when all 16 words are defined. -/
theorem State.readBinAll_eq_ok {s : State} {ps : Quad (Quad Word)} :
    s.readBinAll = .ok ps
      ↔ (∀ l w, ((s.bin.get l).get w).written = true) ∧ s.bin.map (fun q => q.map RegWord.val) = ps := by
  have hall : ∀ {l : Fin 4}, (∃ p, s.readBin l = .ok p) ↔ ∀ w, ((s.bin.get l).get w).written = true := by
    intro l
    simp [State.readBin_eq_ok]
  unfold State.readBinAll
  split
  · rename_i a b c d h0 h1 h2 h3
    rw [State.readBin_eq_ok] at h0 h1 h2 h3
    simp only [Fin.forall_fin_succ (n := 3), Fin.forall_fin_succ (n := 2), Fin.forall_fin_succ (n := 1),
      Fin.forall_fin_one, Except.ok.injEq]
    constructor
    · rintro rfl
      exact ⟨⟨by simpa [Fin.forall_fin_succ] using h0.1, by simpa [Fin.forall_fin_succ] using h1.1,
        by simpa [Fin.forall_fin_succ] using h2.1, by simpa [Fin.forall_fin_succ] using h3.1⟩,
        by rw [← h0.2, ← h1.2, ← h2.2, ← h3.2]; rfl⟩
    · rintro ⟨-, rfl⟩
      rw [← h0.2, ← h1.2, ← h2.2, ← h3.2]; rfl
  · rename_i hne
    simp only [reduceCtorEq, false_iff, not_and]
    intro h
    obtain ⟨a, ha⟩ := hall.2 (h 0)
    obtain ⟨b, hb⟩ := hall.2 (h 1)
    obtain ⟨c, hc⟩ := hall.2 (h 2)
    obtain ⟨d, hd⟩ := hall.2 (h 3)
    exact absurd hd (hne a b c d ha hb hc)

/-- The four BIN lanes raise no fault but the model fault. -/
theorem State.readBinAll_error {s : State} {f : Fault} (h : s.readBinAll = .error f) :
    f = .unwrittenRead ∧ ∃ l w, ((s.bin.get l).get w).written = false := by
  constructor
  · unfold State.readBinAll at h
    split at h <;> simp_all
  · by_contra hn
    simp only [not_exists, Bool.not_eq_false] at hn
    rw [State.readBinAll_eq_ok.2 ⟨hn, rfl⟩] at h
    cases h

/-- The message length is read exactly when both words are defined (R32). -/
theorem State.readMsgLen_eq_ok {s : State} {n : Nat} :
    s.readMsgLen = .ok n
      ↔ s.msgLenLo.written = true ∧ s.msgLenHi.written = true
        ∧ s.msgLenHi.val.toNat * 2 ^ 32 + s.msgLenLo.val.toNat = n := by
  unfold State.readMsgLen
  cases hlo : s.msgLenLo.read with
  | error f => simp [(RegWord.read_eq_error.1 hlo).1]
  | ok lo =>
    cases hhi : s.msgLenHi.read with
    | error f => simp [(RegWord.read_eq_error.1 hhi).1]
    | ok hi =>
      rw [RegWord.read_eq_ok] at hlo hhi
      simp [hlo, hhi]

/-- The message is read exactly when its length and all its bytes are defined (R53). -/
theorem State.readMessage_eq_ok {s : State} {m : List Byte} :
    s.readMessage = .ok m
      ↔ s.readMsgLen = .ok m.length ∧ ∀ a : Nat, ∀ h : a < m.length, memRead s.msgbuf a = some m[a] := by
  unfold State.readMessage
  cases hn : s.readMsgLen with
  | error f => simp
  | ok n =>
    simp only [msgBytes_ok_iff, Nat.zero_add, Except.ok.injEq]
    constructor
    · rintro ⟨rfl, h⟩; exact ⟨rfl, h⟩
    · rintro ⟨rfl, h⟩; exact ⟨rfl, h⟩

/-- Reading the message raises no fault but the model fault. -/
theorem State.readMessage_error {s : State} {f : Fault} (_ : s.readMessage = .error f) : f = .unwrittenRead :=
  f.eq_unwrittenRead

/-- A register the host reads raises no fault but the model fault. -/
theorem State.readReg_error {s : State} {r : Reg} {f : Fault} (_ : s.readReg r = .error f) : f = .unwrittenRead :=
  f.eq_unwrittenRead

/-- A register access reaches a register exactly when it is 32 bits wide, aligned, inside REGS and mapped (R52). -/
theorem accessReg_eq_ok {width off : Nat} {r : Reg} :
    accessReg width off = .ok r ↔ width = 32 ∧ off % 4 = 0 ∧ off < 0x200 ∧ regAt off = some r := by
  unfold accessReg
  split
  · simp_all
  · split
    · simp_all
    · split
      · simp_all
      · cases h : regAt off <;> simp_all

/-- The register map gives every register back at its own offset (R51). -/
theorem wordIndex_base_add {base n : Nat} (h4 : base % 4 = 0) (i : Fin n) :
    wordIndex base n (base + 4 * i.val) = some i := by
  unfold wordIndex
  rw [dif_pos ⟨by omega, by omega, by omega⟩]
  congr 1
  apply Fin.ext
  simp

/-- A run of registers has nothing outside its offsets. -/
theorem wordIndex_eq_some {base n off : Nat} {i : Fin n} (h4 : base % 4 = 0) :
    wordIndex base n off = some i ↔ off = base + 4 * i.val := by
  constructor
  · intro h
    unfold wordIndex at h
    split at h
    · simp only [Option.some.injEq] at h
      subst h
      simp only
      omega
    · cases h
  · rintro rfl
    exact wordIndex_base_add h4 i

end Sys2Proof.Machine
end

