-- ==== Sys2Proof/Laws/Encoding.lean ====
section
/-! SUPPORT. The opcode map as a table: a row is hit by exactly its own word, and no two rows overlap (R71). -/

namespace Sys2Proof

/-- Every row's mask is 0xFFFFFFFF (R71). -/
theorem opcodeMap_mask : ∀ r ∈ opcodeMap, r.mask = 0xFFFFFFFF := by decide

/-- No two rows of the opcode map match the same word: their match values differ pairwise. -/
theorem opcodeMap_no_overlap : opcodeMap.Pairwise fun r q => r.pattern ≠ q.pattern := by decide

/-- Every row's match value is the word the encoder builds from the row's fields (R70, R72). -/
theorem opcodeMap_encode : ∀ r ∈ opcodeMap, r.pattern = encode r.instr := by decide

/-- A row is hit by exactly its match value (R71). -/
theorem OpRow.hits_iff {r : OpRow} (h : r.mask = 0xFFFFFFFF) (c : Word) : r.hits c = true ↔ c = r.pattern := by
  have hm : c &&& 0xFFFFFFFF#32 = c := by
    have : (0xFFFFFFFF#32) = BitVec.allOnes 32 := by decide
    rw [this, BitVec.and_allOnes]
  simp [OpRow.hits, h, hm]

end Sys2Proof
end

