-- ==== Sys2Proof/Laws/PerInstr.lean ====
section
/-! SUPPORT. Statements for all commands, one lemma per constructor. RoundTrip: the command is well formed, its word has
RSV = 0, and its word decodes to it (R70-R72). -/

namespace Sys2Proof.Laws.RoundTrip

/-- A command's word is legal and stands for the command. -/
def Statement (i : Instr) : Prop := i.wf = true ∧ rsvField (encode i) = 0 ∧ decode (encode i) = .ok i

theorem sm4KeyexpEnc : Statement .sm4KeyexpEnc := ⟨by decide, by decide, by decide⟩
theorem sm4KeyexpDec : Statement .sm4KeyexpDec := ⟨by decide, by decide, by decide⟩
theorem sm4Crypt : Statement .sm4Crypt := ⟨by decide, by decide, by decide⟩
theorem sm4Crypt4 : Statement .sm4Crypt4 := ⟨by decide, by decide, by decide⟩
theorem sm3Hash : Statement .sm3Hash := ⟨by decide, by decide, by decide⟩
theorem sm3HashAuto : Statement .sm3HashAuto := ⟨by decide, by decide, by decide⟩

end Sys2Proof.Laws.RoundTrip
end

