-- ==== Sys2Proof/Laws/Sm3.lean ====
section
/-! SUPPORT. The small laws of SM3: the shape of the padded message, what the schedule holds, and the merge. -/

namespace Sys2Proof.Machine

/-- The four bytes of a word. -/
@[simp] theorem unbe32_length (w : Word) : (unbe32 w).length = 4 := rfl

/-- The length suffix is eight bytes (R166). -/
@[simp] theorem lengthSuffix_length (n : Nat) : (lengthSuffix n).length = 8 := rfl

/-- The padded length, before any arithmetic (R167). -/
@[simp] theorem pad_length (m : List Byte) : (pad m).length = m.length + 1 + zeroCount m.length + 8 := by
  simp [pad]; omega

/-- The zero count closes the block (R166). -/
theorem zeroCount_spec (n : Nat) : zeroCount n < 64 ∧ (n + 1 + zeroCount n + 8) % 64 = 0 := by
  unfold zeroCount
  omega

/-- The number of blocks (R167). -/
@[simp] theorem blocks_length (pm : List Byte) : (blocks pm).length = pm.length / 64 := by
  simp [blocks]

/-- A padded message has at least one block (R167). -/
theorem blocks_pad_pos (m : List Byte) : 0 < (blocks (pad m)).length := by
  have := zeroCount_spec m.length
  rw [blocks_length, pad_length]
  omega

/-- Words already in the schedule are not changed by extending it. -/
theorem extendW_getElem? (h : List Word) (n k : Nat) :
    (extendW h n)[n + k]? = h[k]? := by
  induction n generalizing h k with
  | zero => simp [extendW]
  | succ n ih =>
    have := ih (nextW h :: h) (k + 1)
    rw [show n + 1 + k = n + (k + 1) from by omega, extendW, this]
    rfl

/-- The empty merge changes nothing. -/
@[simp] theorem Oct.xor_zero (p : Oct Word) : p.xor (Oct.fill 0#32) = p := by
  cases p; simp [Oct.xor, Oct.fill]

/-- The merge does not depend on the order of two states (R195). -/
theorem Oct.xor_comm (p q : Oct Word) : p.xor q = q.xor p := by
  cases p; cases q; simp [Oct.xor, BitVec.xor_comm]

/-- The merge does not depend on how states are grouped (R195). -/
theorem Oct.xor_assoc (p q r : Oct Word) : (p.xor q).xor r = p.xor (q.xor r) := by
  cases p; cases q; cases r; simp [Oct.xor, BitVec.xor_assoc]

/-- One step of a lane leaves what the lane computes unchanged (R197). -/
theorem laneResult_laneStep {σ β : Type} (f : σ → β → σ) (l : Lane σ β) :
    laneResult f (laneStep f l) = laneResult f l := by
  obtain ⟨s, todo⟩ := l
  cases todo <;> rfl

/-- A lane that has finished holds what it computes. -/
theorem laneResult_of_done {σ β : Type} (f : σ → β → σ) {l : Lane σ β} (h : l.todo.isEmpty = true) :
    laneResult f l = l.state := by
  obtain ⟨s, todo⟩ := l
  cases todo with
  | nil => rfl
  | cons x rest => cases h

end Sys2Proof.Machine
end

