-- ==== Sys2Proof/Laws/Sm4.lean ====
section
/-! SUPPORT. What the shared Feistel buffer of SM4 holds, word by word, and its four-word window. -/

namespace Sys2Proof.Machine

/-- The first word of the buffer is the first word of the window. -/
theorem feistelBuf_zero (mix : Word → Word) (w : Quad Word) (ks : List Word) :
    (feistelBuf mix w ks)[0]? = some w.w0 := by
  cases ks <;> rfl

/-- The buffer starts with the four seeds. -/
theorem feistelBuf_seed (mix : Word → Word) (w : Quad Word) (ks : List Word) (i : Fin 4) :
    (feistelBuf mix w ks)[i.val]? = some (w.get i) := by
  match ks with
  | [] => fin_cases i <;> rfl
  | [_] => fin_cases i <;> rfl
  | [_, _] => fin_cases i <;> rfl
  | _ :: _ :: _ :: _ => fin_cases i <;> simp [feistelBuf, feistelRound, Quad.get, feistelBuf_zero]

/-- Round i reads the words i..i+3 of the buffer and the i-th key, and writes word i+4 (R123, R141). -/
theorem feistelBuf_round (mix : Word → Word) (w : Quad Word) (ks : List Word) (i : Nat) (hi : i < ks.length) :
    ∃ a b c d, (feistelBuf mix w ks)[i]? = some a ∧ (feistelBuf mix w ks)[i + 1]? = some b
      ∧ (feistelBuf mix w ks)[i + 2]? = some c ∧ (feistelBuf mix w ks)[i + 3]? = some d
      ∧ (feistelBuf mix w ks)[i + 4]? = some (a ^^^ mix (b ^^^ c ^^^ d ^^^ ks[i])) := by
  induction ks generalizing w i with
  | nil => simp at hi
  | cons k ks ih =>
    cases i with
    | zero =>
      have h := feistelBuf_seed mix (feistelRound mix w k) ks
      have h0 := h 0
      have h1 := h 1
      have h2 := h 2
      have h3 := h 3
      simp only [Quad.get, feistelRound, Fin.isValue, Fin.coe_ofNat_eq_mod] at h0 h1 h2 h3
      exact ⟨w.w0, w.w1, w.w2, w.w3, rfl, h0, h1, h2, h3⟩
    | succ i =>
      obtain ⟨a, b, c, d, ha, hb, hc, hd, he⟩ := ih (feistelRound mix w k) i (by simpa using hi)
      exact ⟨a, b, c, d, by simpa [feistelBuf] using ha, by simpa [feistelBuf] using hb,
        by simpa [feistelBuf] using hc, by simpa [feistelBuf] using hd, by simpa [feistelBuf] using he⟩

/-- The last four words of the buffer are the final window (R125). -/
theorem feistelBuf_last (mix : Word → Word) (w : Quad Word) (ks : List Word) (i : Fin 4) :
    (feistelBuf mix w ks)[ks.length + i.val]? = some ((ks.foldl (feistelRound mix) w).get i) := by
  induction ks generalizing w with
  | nil => fin_cases i <;> rfl
  | cons k ks ih =>
    have := ih (feistelRound mix w k)
    rw [List.length_cons, show ks.length + 1 + i.val = (ks.length + i.val) + 1 from by omega]
    simpa [feistelBuf] using this

/-- The output of the block transform is the final window in the opposite order (R142). -/
theorem sm4Words_eq (p : Quad Word) (rks : Vector Word 32) :
    sm4Words p rks = (rks.toList.foldl (feistelRound mixT) p).reverse := by
  have hlen : rks.toList.length = 32 := by simp
  have h : ∀ i : Fin 4, ∀ h : 32 + i.val < 36,
      (blockBuf p rks)[32 + i.val] = (rks.toList.foldl (feistelRound mixT) p).get i := by
    intro i hi
    have := feistelBuf_last mixT p rks.toList i
    rw [hlen, List.getElem?_eq_some_iff] at this
    obtain ⟨_, h⟩ := this
    simpa [blockBuf] using h
  have h0 := h 0 (by decide)
  have h1 := h 1 (by decide)
  have h2 := h 2 (by decide)
  have h3 := h 3 (by decide)
  simp only [Fin.isValue, Fin.coe_ofNat_eq_mod, Nat.reduceMod, Nat.reduceAdd, Quad.get] at h0 h1 h2 h3
  simp [sm4Words, Quad.reverse, h0, h1, h2, h3]

/-- A round undone: on the reversed window, the same round with the same key gives the reversed window before it. -/
theorem feistelRound_reverse (mix : Word → Word) (w : Quad Word) (k : Word) :
    feistelRound mix (feistelRound mix w k).reverse k = w.reverse := by
  have hx : w.w3 ^^^ w.w2 ^^^ w.w1 ^^^ k = w.w1 ^^^ w.w2 ^^^ w.w3 ^^^ k := by
    rw [BitVec.xor_comm w.w3 w.w2, BitVec.xor_assoc w.w2, BitVec.xor_comm w.w3, ← BitVec.xor_assoc w.w2,
      BitVec.xor_comm w.w2]
  simp only [feistelRound, feistelNext, Quad.reverse, Quad.mk.injEq, true_and]
  rw [hx, BitVec.xor_assoc, BitVec.xor_self, BitVec.xor_zero]

end Sys2Proof.Machine
end

