-- ==== Sys2Proof/Laws/Steps.lean ====
section
/-! SUPPORT. What a command and a step can do, said once: each command's next states, a CMD write, and the cases of one
step, and how runs follow one another. Every invariant is derived from these. -/

namespace Sys2Proof.Machine

/-- The next state of `sm4.keyexp.enc` (R127). -/
theorem execSm4KeyexpEnc_eq_next {s t : State} :
    execSm4KeyexpEnc s = .next t
      ↔ ∃ mk, s.readKey = .ok mk ∧ ((s.writeRk (roundKeysEnc mk)).setRoundKeysValid true).setErr .none = t := by
  simp [execSm4KeyexpEnc, withRead_eq_next]

/-- The next state of `sm4.keyexp.dec` (R128). -/
theorem execSm4KeyexpDec_eq_next {s t : State} :
    execSm4KeyexpDec s = .next t
      ↔ ∃ mk, s.readKey = .ok mk ∧ ((s.writeRk (roundKeysDec mk)).setRoundKeysValid false).setErr .none = t := by
  simp [execSm4KeyexpDec, withRead_eq_next]

/-- The next states of `sm4.crypt`: NO_KEY, or one block (R143). -/
theorem execSm4Crypt_eq_next {s t : State} :
    execSm4Crypt s = .next t
      ↔ (s.status.rkv = false ∧ s.setErr .noKey = t)
        ∨ (s.status.rkv = true ∧ ∃ p rks, s.readBin 0 = .ok p ∧ s.readRk = .ok rks
            ∧ (s.writeBout 0 (sm4Words p rks)).setErr .none = t) := by
  unfold execSm4Crypt
  cases s.status.rkv <;> simp [withRead_eq_next]

/-- The next states of `sm4.crypt4`: ILLEGAL, NO_KEY, or four blocks (R144). -/
theorem execSm4Crypt4_eq_next {s t : State} :
    execSm4Crypt4 s = .next t
      ↔ (s.params.hasX4 = false ∧ s.setErr .illegal = t)
        ∨ (s.params.hasX4 = true ∧ s.status.rkv = false ∧ s.setErr .noKey = t)
        ∨ (s.params.hasX4 = true ∧ s.status.rkv = true ∧ ∃ ps rks, s.readBinAll = .ok ps ∧ s.readRk = .ok rks
            ∧ (s.writeBoutAll (ps.map fun p => sm4Words p rks)).setErr .none = t) := by
  unfold execSm4Crypt4
  cases s.params.hasX4 <;> cases s.status.rkv <;> simp [withRead_eq_next]

/-- The next state of `sm3.hash` (R174). -/
theorem execSm3Hash_eq_next {s t : State} :
    execSm3Hash s = .next t
      ↔ ∃ m, s.readMessage = .ok m ∧ ((s.writeDigest (hseq m)).setPar false).setErr .none = t := by
  simp [execSm3Hash, withRead_eq_next]

/-- The next state of `sm3.hash.auto` (R196). -/
theorem execSm3HashAuto_eq_next {s t : State} :
    execSm3HashAuto s = .next t
      ↔ ∃ m, s.readMessage = .ok m
        ∧ ((s.writeDigest (hauto s.params m)).setPar (chunked s.params m)).setErr .none = t := by
  simp [execSm3HashAuto, withRead_eq_next]

/-- What a CMD write leads to: the decoded command's next state, or ERR = ILLEGAL and nothing else (R22, R73). -/
theorem issue_eq_next {c : Word} {s t : State} :
    issue c s = .next t
      ↔ (∃ i, decode c = .ok i ∧ exec i s = .next t)
        ∨ ((∃ e, decode c = .error e) ∧ s.setErr .illegal = t) := by
  unfold issue
  cases decode c <;> simp

/-- The cases of one access that goes on. -/
theorem doAccess_eq_next {x : Access} {s t : State} :
    doAccess x s = .next t
      ↔ (∃ width off r v, x = .read width off ∧ accessReg width off = .ok r ∧ s.readReg r = .ok v
            ∧ s.pushRead (.word v) = t)
        ∨ (∃ width off c, x = .write width off c ∧ accessReg width off = .ok .cmd ∧ issue c s = .next t)
        ∨ (∃ width off v r, x = .write width off v ∧ accessReg width off = .ok r ∧ r ≠ .cmd ∧ s.writeReg r v = t)
        ∨ (∃ a b, x = .readMsg a ∧ a < 2 ^ 64 ∧ msgByte s.msgbuf a = .ok b ∧ s.pushRead (.byte b) = t)
        ∨ (∃ a bs, x = .writeMsg a bs ∧ a + bs.length ≤ 2 ^ 64 ∧ s.writeMsg a bs = t) := by
  cases x with
  | read width off =>
    simp only [doAccess, hostRead, Access.read.injEq, reduceCtorEq, false_and, exists_false, or_false]
    cases h : accessReg width off with
    | error e =>
      simp only [reduceCtorEq, false_iff]
      rintro ⟨_, _, r, v, ⟨rfl, rfl⟩, hr, -⟩
      rw [h] at hr; cases hr
    | ok r =>
      simp only [withRead_eq_next, Host.Outcome.next.injEq]
      constructor
      · rintro ⟨v, hv, ht⟩; exact ⟨_, _, r, v, ⟨rfl, rfl⟩, h, hv, ht⟩
      · rintro ⟨_, _, r', v, ⟨rfl, rfl⟩, hr, hv, ht⟩
        rw [h] at hr; cases hr
        exact ⟨v, hv, ht⟩
  | write width off v =>
    simp only [doAccess, hostWrite, Access.write.injEq, reduceCtorEq, false_and, exists_false, or_false, false_or]
    cases h : accessReg width off with
    | error e =>
      simp only [reduceCtorEq, false_iff]
      rintro (⟨_, _, c, ⟨rfl, rfl, rfl⟩, hr, -⟩ | ⟨_, _, c, r, ⟨rfl, rfl, rfl⟩, hr, -⟩) <;> (rw [h] at hr; cases hr)
    | ok r =>
      by_cases hc : r = .cmd
      · subst hc
        simp only [if_true]
        constructor
        · intro ht; exact .inl ⟨_, _, v, ⟨rfl, rfl, rfl⟩, h, ht⟩
        · rintro (⟨_, _, c, ⟨rfl, rfl, rfl⟩, -, ht⟩ | ⟨_, _, c, r, ⟨rfl, rfl, rfl⟩, hr, hne, -⟩)
          · exact ht
          · rw [h] at hr; cases hr; exact absurd rfl hne
      · simp only [hc, if_false, Host.Outcome.next.injEq]
        constructor
        · intro ht; exact .inr ⟨_, _, v, r, ⟨rfl, rfl, rfl⟩, h, hc, ht⟩
        · rintro (⟨_, _, c, ⟨rfl, rfl, rfl⟩, hr, -⟩ | ⟨_, _, c, r', ⟨rfl, rfl, rfl⟩, hr, -, ht⟩)
          · rw [h] at hr; cases hr; exact absurd rfl hc
          · rw [h] at hr; cases hr; exact ht
  | readMsg a =>
    simp only [doAccess, hostReadMsg, Access.readMsg.injEq, reduceCtorEq, false_and, exists_false, or_false, false_or]
    split
    · rename_i ha
      simp only [withRead_eq_next, Host.Outcome.next.injEq]
      constructor
      · rintro ⟨b, hb, ht⟩; exact ⟨a, b, rfl, ha, hb, ht⟩
      · rintro ⟨_, b, rfl, -, hb, ht⟩; exact ⟨b, hb, ht⟩
    · rename_i ha
      simp only [reduceCtorEq, false_iff]
      rintro ⟨_, b, rfl, hlt, -⟩
      exact ha hlt
  | writeMsg a bs =>
    simp only [doAccess, hostWriteMsg, Access.writeMsg.injEq, reduceCtorEq, false_and, exists_false, false_or]
    split
    · rename_i ha
      simp only [Host.Outcome.next.injEq]
      constructor
      · intro ht; exact ⟨a, bs, ⟨rfl, rfl⟩, ha, ht⟩
      · rintro ⟨_, _, ⟨rfl, rfl⟩, -, ht⟩; exact ht
    · rename_i ha
      simp only [reduceCtorEq, false_iff]
      rintro ⟨_, _, ⟨rfl, rfl⟩, hle, -⟩
      exact ha hle

/-- The cases of one step that goes on: idle, an access, a line of the host's program expanded, or reset. -/
theorem step_eq_next {s t : State} :
    step s = .next t
      ↔ (s.inputs = [] ∧ s = t)
        ∨ (∃ a rest, s.inputs = .access a :: rest ∧ doAccess a (s.setInputs rest) = .next t)
        ∨ (∃ p rest ops, s.inputs = .pseudo p :: rest ∧ Pseudo.expand p = .ok ops
            ∧ s.setInputs (ops.map Input.access ++ rest) = t)
        ∨ (∃ rest, s.inputs = .reset :: rest ∧ resetEvent (s.setInputs rest) = t) := by
  unfold step
  cases hs : s.inputs with
  | nil => simp
  | cons x rest =>
    cases x with
    | access a => simp [takeInput]
    | pseudo p =>
      cases h : Pseudo.expand p with
      | error r => simp [takeInput, h]
      | ok ops =>
        simp [takeInput, h, State.setInputs]
    | reset => simp [takeInput]

/-- Reading an operand adds no refusal. -/
theorem withRead_not_refused {α : Type} {r : Except Fault α} {k : α → Result}
    (h : ∀ a x, k a ≠ .refused x) (x : Refusal) : withRead r k ≠ .refused x := by
  rw [ne_eq, withRead_eq_refused]
  rintro ⟨a, -, ha⟩
  exact h a x ha

/-- Two runs without a fault, one after the other. -/
theorem safeRun_add {a b : Nat} {s u t : State} (h : safeRun a s u) (h' : safeRun b u t) : safeRun (a + b) s t := by
  induction a generalizing s with
  | zero => cases h; simpa using h'
  | succ a ih =>
    obtain ⟨x, hx, hr⟩ := h
    rw [Nat.add_right_comm]
    exact ⟨x, hx, ih hr⟩

/-- A run of no step. -/
theorem State.runsTo_refl (s : State) : s.runsTo s := ⟨0, rfl⟩

/-- A step that goes on, then a run. -/
theorem State.runsTo_of_step {s u t : State} (h : step s = .next u) (h' : u.runsTo t) : s.runsTo t := by
  obtain ⟨k, hk⟩ := h'
  exact ⟨k + 1, u, h, hk⟩

/-- Two runs, one after the other. -/
theorem State.runsTo_trans {s u t : State} (h : s.runsTo u) (h' : u.runsTo t) : s.runsTo t := by
  obtain ⟨a, ha⟩ := h
  obtain ⟨b, hb⟩ := h'
  exact ⟨a + b, safeRun_add ha hb⟩

end Sys2Proof.Machine
end

