-- ==== Sys2Proof/Tests/Slice0.lean ====
section
/-! SUPPORT. The model's own tests. Expected values are those spec/95_test_vectors.md lists (V1-V59); each theorem's
comment names the vector or the rule. Then one witness for every statement of Certificates/Slice0/Obligations.lean that has
hypotheses, clause by clause. -/

namespace Sys2Proof.Tests

open Sys2Proof Sys2Proof.Machine

/-! ## Ill-formed accesses are refused (R52, R213; V34) -/

theorem test_wf_width : (Access.read 16 0x004).wf = false ∧ (Access.write 8 0x010 0).wf = false := by decide

theorem test_wf_aligned : (Access.write 32 0x002 0).wf = false ∧ (Access.read 32 0x005).wf = false := by decide

theorem test_wf_inside : (Access.read 32 0x200).wf = false ∧ (Access.read 32 0x1FC).wf = false := by decide

/-- Both ends of every reserved range of rule R51. -/
theorem test_wf_reserved :
    [0x00C, 0x018, 0x01C, 0x030, 0x07C, 0x1A0, 0x1FC].all (fun off => !(Access.read 32 off).wf) = true := by decide

/-- The registers beside the reserved ranges are allowed. -/
theorem test_wf_allowed :
    [0x000, 0x008, 0x010, 0x014, 0x020, 0x02C, 0x080, 0x0FC, 0x100, 0x13C, 0x140, 0x17C, 0x180, 0x19C].all
      (fun off => (Access.read 32 off).wf) = true := by decide

theorem test_wf_msgbuf : (Access.readMsg (2 ^ 64)).wf = false ∧ (Access.readMsg (2 ^ 64 - 1)).wf = true
    ∧ (Access.writeMsg (2 ^ 64 - 1) [0, 0]).wf = false := by decide

/-- A 15-byte and a 17-byte argument of each call that takes 16 bytes (R213 (b)). -/
theorem test_wf_sixteen :
    (Pseudo.setkey (List.replicate 15 0)).wf = false ∧ (Pseudo.setblk 3 (List.replicate 17 0)).wf = false
      ∧ (Pseudo.expandKey (List.replicate 15 0) true true).wf = false
      ∧ (Pseudo.transformBlock (List.replicate 17 0)).wf = false
      ∧ (Pseudo.setkey (List.replicate 16 0)).wf = true := by decide

/-! ## Command words, written out bit by bit: RSV (23 bits), F, OP (R70, R72) -/

theorem test_decode_sm4KeyexpEnc :
    decode (0b00000000000000000000000100000001 : Word) = .ok .sm4KeyexpEnc ∧ encode .sm4KeyexpEnc = 0x00000101 := by
  decide

theorem test_decode_sm4KeyexpDec :
    decode (0b00000000000000000000000000000001 : Word) = .ok .sm4KeyexpDec ∧ encode .sm4KeyexpDec = 0x00000001 := by
  decide

theorem test_decode_sm4Crypt :
    decode (0b00000000000000000000000000000010 : Word) = .ok .sm4Crypt ∧ encode .sm4Crypt = 0x00000002 := by decide

theorem test_decode_sm4Crypt4 :
    decode (0b00000000000000000000000000000011 : Word) = .ok .sm4Crypt4 ∧ encode .sm4Crypt4 = 0x00000003 := by decide

theorem test_decode_sm3Hash :
    decode (0b00000000000000000000000000010000 : Word) = .ok .sm3Hash ∧ encode .sm3Hash = 0x00000010 := by decide

theorem test_decode_sm3HashAuto :
    decode (0b00000000000000000000000100010000 : Word) = .ok .sm3HashAuto ∧ encode .sm3HashAuto = 0x00000110 := by
  decide

/-- The illegal words of V30. -/
theorem test_decode_illegal :
    decode 0x00000000 = .error .zeroOpcode ∧ decode 0x00000004 = .error .unassignedOpcode
      ∧ decode 0x0000000F = .error .unassignedOpcode ∧ decode 0x00000011 = .error .unassignedOpcode
      ∧ decode 0x000000FF = .error .unassignedOpcode ∧ decode 0x00000102 = .error .functionBit
      ∧ decode 0x00000103 = .error .functionBit ∧ decode 0x00000201 = .error .reservedBits
      ∧ decode 0x80000010 = .error .reservedBits ∧ decode 0xFFFFFFFF = .error .reservedBits := by decide

/-- No two rows of the opcode map have a word in common (R71). -/
theorem test_rows_disjoint :
    opcodeMap.Pairwise (fun r q => r.pattern &&& q.mask ≠ q.pattern &&& r.mask) := by decide

/-- A row longer than a command word, or given too few bits, is no command. -/
theorem test_tableWord : decodeTableWord 64 0x00000101 = none ∧ decodeTableWord 8 0x00000101 = some .sm4KeyexpDec := by
  decide

/-! ## One step of each command -/

/-- A property of the state an outcome goes on to. -/
def after (o : Result) (p : State → Bool) : Bool :=
  match o with
  | .next t => p t
  | .fault _ => false
  | .refused _ => false

/-- An outcome with a property of its next state has a next state. -/
theorem after_next {o : Result} {p : State → Bool} (h : after o p = true) : ∃ t, o = .next t := by
  cases o with
  | next t => exact ⟨t, rfl⟩
  | fault f => cases h
  | refused r => cases h

/-- The fault an outcome stops with. -/
def faultOf (o : Result) : Option Fault :=
  match o with
  | .next _ => none
  | .fault f => some f
  | .refused _ => none

/-- The refusal an outcome stops with. -/
def refusalOf (o : Result) : Option Refusal :=
  match o with
  | .next _ => none
  | .fault _ => none
  | .refused r => some r

/-- The words 0x01234567 89ABCDEF FEDCBA98 76543210: the standard key and block. -/
def stdWords : Quad Word := ⟨0x01234567, 0x89ABCDEF, 0xFEDCBA98, 0x76543210⟩

/-- Reset, with the standard key in KEY. -/
def keyed : State := { State.reset with key := stdWords.map RegWord.of }

/-- Every operand in place, for the parameters and the message given. -/
def ready (x4 : Bool) (extraLanes threshold : Nat) (m : List Byte) : State :=
  { State.reset with
    params := { hasX4 := x4, extraLanes := extraLanes, threshold := threshold }
    key := stdWords.map RegWord.of
    rk := (roundKeysEnc stdWords).map RegWord.of
    status := { Status.reset with rkv := true, rkdir := true }
    bin := ⟨stdWords.map RegWord.of, Quad.fill (RegWord.of 0), Quad.fill (RegWord.of 0xFFFFFFFF),
      Quad.map RegWord.of ⟨0x681EDF34, 0xD206965E, 0x86B3E94F, 0x536E4246⟩⟩
    msgLenLo := RegWord.of (BitVec.ofNat 32 m.length)
    msgLenHi := RegWord.of 0
    msgbuf := memWriteBytes [] 0 m }

/-- "abc". -/
def abc : List Byte := [0x61, 0x62, 0x63]

/-- V20: RK[0], RK[8] and RK[31], STATUS = 00000003. -/
theorem test_sm4KeyexpEnc_V20 :
    after (step (keyed.withFetchWord 32 0x00000101)) (fun t =>
      t.rk[0] == RegWord.of 0xF12186F9 && t.rk[8] == RegWord.of 0xA520307C && t.rk[31] == RegWord.of 0x9124A012
        && t.status.toWord == 0x00000003) = true := by
  decide +kernel

/-- V33: KEY[3] never written. -/
theorem test_sm4KeyexpEnc_V33 :
    faultOf (step ({ keyed with key := { keyed.key with w3 := RegWord.bottom } }.withFetchWord 32 0x00000101))
      = some .unwrittenRead := by
  decide +kernel

/-- V21: RK[0], RK[1] and RK[31], STATUS = 00000001. -/
theorem test_sm4KeyexpDec_V21 :
    after (step (keyed.withFetchWord 32 0x00000001)) (fun t =>
      t.rk[0] == RegWord.of 0x9124A012 && t.rk[1] == RegWord.of 0x01CF72E5 && t.rk[31] == RegWord.of 0xF12186F9
        && t.status.toWord == 0x00000001) = true := by
  decide +kernel

/-- V22: the standard block. -/
theorem test_sm4Crypt_V22 :
    after (step ((ready false 0 0 []).withFetchWord 32 0x00000002)) (fun t =>
      t.bout.get 0 == Quad.map RegWord.of ⟨0x681EDF34, 0xD206965E, 0x86B3E94F, 0x536E4246⟩
        && t.bout.get 1 == Quad.fill RegWord.bottom && t.status.toWord == 0x00000003) = true := by
  decide +kernel

/-- V31: no round keys, and BIN[0] not written either. STATUS = 00000020 and BOUT stays ⊥. -/
theorem test_sm4Crypt_V31 :
    after (step (State.reset.withFetchWord 32 0x00000002)) (fun t =>
      t.status.toWord == 0x00000020 && t.bout == Quad.fill (Quad.fill RegWord.bottom)) = true := by
  decide +kernel

/-- V28: lanes 1 and 3. -/
theorem test_sm4Crypt4_V28 :
    after (step ((ready true 0 0 []).withFetchWord 32 0x00000003)) (fun t =>
      t.bout.get 1 == Quad.map RegWord.of ⟨0x2677F46B, 0x09C122CC, 0x97553310, 0x5BD4A22A⟩
        && t.bout.get 3 == Quad.map RegWord.of ⟨0xF324184F, 0x3C8892B7, 0x2BDC9D7C, 0x612919DE⟩) = true := by
  decide +kernel

/-- V32: without the capability ILLEGAL comes before NO_KEY; with it NO_KEY is left. -/
theorem test_sm4Crypt4_V32 :
    after (step ({ State.reset with params := ⟨false, 0, 0⟩ }.withFetchWord 32 0x00000003))
        (fun t => t.status.toWord == 0x00000010) = true
      ∧ after (step ({ State.reset with params := ⟨true, 0, 0⟩ }.withFetchWord 32 0x00000003))
        (fun t => t.status.toWord == 0x00000020) = true := by
  decide +kernel

/-- V2: the digest of "abc". -/
theorem test_sm3Hash_V2 :
    after (step ((ready false 0 0 abc).withFetchWord 32 0x00000010)) (fun t =>
      t.digest == Oct.map RegWord.of
        ⟨0x66C7F0F4, 0x62EEEDD9, 0xD1F2D46B, 0xDC10E4E2, 0x4167C487, 0x5CF2F7A2, 0x297DA02B, 0x8F4BA8E0⟩
        && !t.status.par) = true := by
  decide +kernel

/-- V33: MSG_LEN = 4 with byte 3 never written. -/
theorem test_sm3Hash_V33 :
    faultOf (step ({ ready false 0 0 abc with msgLenLo := RegWord.of 4 }.withFetchWord 32 0x00000010))
      = some .unwrittenRead := by
  decide +kernel

/-- V50: 64 bytes of "a" over two partitions, the chunked value and PAR = 1. -/
theorem test_sm3HashAuto_V50 :
    after (step ((ready false 1 64 (List.replicate 64 0x61)).withFetchWord 32 0x00000110)) (fun t =>
      t.digest == Oct.map RegWord.of
        ⟨0x3E366D12, 0x0C19C9EB, 0xA854E59F, 0xB6B91D5E, 0x61A4E871, 0xAB982D1F, 0x6BD5F479, 0x7F896964⟩
        && t.status.par) = true := by
  decide +kernel

/-- V52: 128 is not above 128, so the standard digest and PAR = 0. -/
theorem test_sm3HashAuto_V52 :
    after (step ((ready false 1 128 (List.replicate 64 0x61)).withFetchWord 32 0x00000110)) (fun t =>
      (t.digest.get 0 == RegWord.of 0x616EC433) && (t.digest.get 7 == RegWord.of 0x41C611E9) && !t.status.par) = true := by
  decide +kernel

/-! ## The host's side -/

/-- V35: a write to STATUS or RK[0] has no effect, and CMD reads 0. -/
theorem test_readOnly_V35 :
    (keyed.writeReg .status 0xFFFFFFFF) = keyed ∧ (keyed.writeReg (.rk 0) 0) = keyed
      ∧ keyed.readReg .cmd = .ok 0 := ⟨rfl, rfl, rfl⟩

/-- V33: a read of DIGEST[0] after reset. -/
theorem test_readDigest_V33 :
    faultOf (step (State.reset.setInputs [.access (.read 32 0x180)])) = some .unwrittenRead := by decide +kernel

/-- R50: a MSGBUF access at 2^64, and a write that crosses the end, are refused. -/
theorem test_outsideMsgbuf :
    refusalOf (step (State.reset.setInputs [.access (.readMsg (2 ^ 64))])) = some .outsideMsgbuf
      ∧ refusalOf (step (State.reset.setInputs [.access (.writeMsg (2 ^ 64 - 1) [0, 0])])) = some .outsideMsgbuf := by
  decide +kernel

/-- R78: `setmsg` of the empty string writes no byte, so the MSGBUF write it begins with goes on. -/
theorem test_emptyMsgbufWrite :
    step (State.reset.setInputs [.access (.writeMsg 0 [])]) = .next State.reset := rfl

/-- V34: each refusal by its name. -/
theorem test_refusals_V34 :
    refusalOf (step (State.reset.setInputs [.access (.read 16 0x004)])) = some .wrongWidth
      ∧ refusalOf (step (State.reset.setInputs [.access (.write 32 0x002 0)])) = some .misaligned
      ∧ refusalOf (step (State.reset.setInputs [.access (.read 32 0x00C)])) = some .reservedOffset
      ∧ refusalOf (step (State.reset.setInputs [.access (.read 32 0x1A0)])) = some .reservedOffset
      ∧ refusalOf (step (State.reset.setInputs [.access (.read 32 0x200)])) = some .outsideRegs
      ∧ refusalOf (step (State.reset.setInputs [.pseudo (.setkey (List.replicate 15 0))])) = some .wrongLength := by
  decide +kernel

/-- R53: MSGBUF holds its bytes by rising address, whatever the order of the writes. -/
theorem test_msgbuf_canonical :
    memWriteBytes (memWriteBytes [] 5 [0x05, 0x06]) 3 [0x13, 0x14, 0x15] = [(3, 0x13), (4, 0x14), (5, 0x15), (6, 0x06)]
      ∧ memWf [(3, 0x13), (3, 0x14)] = false ∧ memWf [(2 ^ 64, 0x13)] = false := by
  decide

/-- V10: rotations, the identity among them. -/
theorem test_rotl_V10 :
    rotl 0x80000000 1 = 0x00000001 ∧ rotl 0x12345678 31 = 0x091A2B3C ∧ rotl 0x12345678 0 = 0x12345678 := by decide

/-- V40: z and the length of the padded message at its corners. -/
theorem test_padding_V40 :
    zeroCount 0 = 55 ∧ zeroCount 55 = 0 ∧ zeroCount 56 = 63 ∧ zeroCount 64 = 55 ∧ zeroCount 119 = 0
      ∧ zeroCount 1048567 = 0 ∧ zeroCount 1048568 = 63 ∧ (pad abc).length = 64
      ∧ lengthSuffix 3 = [0, 0, 0, 0, 0, 0, 0, 0x18] := by decide +kernel

/-! ## Witnesses: a state and operands that meet a statement's hypotheses together -/

theorem witness_DecodeOfEncode : Instr.sm4Crypt4.wf = true ∧ decode 0x00000003 = .ok .sm4Crypt4 := by decide

theorem witness_DecodeByFields : (ready false 0 0 []).params.hasX4 = false := rfl

/-- Every class of rule R73 at both ends of its range. -/
theorem witness_IllegalWordsOnlySetErr_classes :
    opField 0x00000000 = 0x00 ∧ (0x04 ≤ (opField 0x00000004).toNat ∧ (opField 0x00000004).toNat ≤ 0x0F)
      ∧ (0x04 ≤ (opField 0x0000000F).toNat ∧ (opField 0x0000000F).toNat ≤ 0x0F)
      ∧ 0x11 ≤ (opField 0x00000011).toNat ∧ 0x11 ≤ (opField 0x000000FF).toNat
      ∧ rsvField 0x00000201 ≠ 0 ∧ rsvField 0x80000010 ≠ 0
      ∧ (fField 0x00000102 = 1 ∧ opField 0x00000102 = 0x02)
      ∧ (fField 0x00000103 = 1 ∧ opField 0x00000103 = 0x03) := by
  decide

theorem witness_IllegalWordsOnlySetErr_word : ∀ i : Instr, (0x00000102 : Word) ≠ encode i := by
  intro i
  cases i <;> decide

theorem witness_Crypt4NeedsCapability :
    (ready false 0 0 []).params.hasX4 = false ∧ (ready true 0 0 []).params.hasX4 = true := by decide

theorem witness_StepRunsIssuedCommand :
    decode 0x00000110 = .ok .sm3HashAuto
      ∧ (State.reset.withFetchWord 32 0x00000110).inputs = .access (.write 32 0x000 0x00000110) :: [] := by
  decide

theorem witness_IdleBlockKeepsState : State.reset.inputs = [] := rfl

/-- An access, a reset, a pseudo-instruction that expands and one that is refused. -/
theorem witness_AccessesTakeEffectInOrder :
    (∃ t, step (State.reset.setInputs [.access (.write 32 0x020 1), .reset]) = .next t)
      ∧ (∃ t, step (State.reset.setInputs [.reset, .reset]) = .next t)
      ∧ Pseudo.expand .getdigest = .ok getdigestOps ∧ Pseudo.expand (.setkey []) = .error .wrongLength :=
  ⟨⟨_, rfl⟩, ⟨_, rfl⟩, rfl, rfl⟩

theorem witness_BigEndianPacking : 0 + 3 < (List.replicate 4 (0 : Byte)).length := by decide

theorem witness_RotateLeft : 0 < 32 ∧ 31 < 32 := by decide

theorem witness_SboxPermutes : sbox 0xFF = sbox 0xFF := rfl

theorem witness_KeyScheduleRecurrence : 0 < 32 ∧ 31 < 32 := by decide

theorem witness_KeyexpEncOutcome :
    keyed.KeyWritten ∧ ∃ i : Fin 4, (State.reset.key.get i).written = false := by decide

theorem witness_KeyexpDecOutcome :
    keyed.KeyWritten ∧ ∃ i : Fin 4, (State.reset.key.get i).written = false := by decide

theorem witness_KeyScheduleReversal : keyed.KeyWritten := by decide

theorem witness_BlockTransformRecurrence : (List.replicate 16 (0 : Byte)).length = 16 := by decide

/-- No round keys; everything in place; round keys and a ⊥ word of BIN[0]. -/
theorem witness_CryptOutcome :
    State.reset.status.rkv = false
      ∧ ((ready false 0 0 []).status.rkv = true ∧ (ready false 0 0 []).RkWritten ∧ (ready false 0 0 []).BinWritten 0)
      ∧ ((ready false 0 0 []).setRoundKeysValid true).status.rkv = true
      ∧ ∃ w : Fin 4, ((({ ready false 0 0 [] with bin := Quad.fill (Quad.fill RegWord.bottom) } : State).bin.get 0).get
          w).written = false := by
  decide +kernel

/-- No capability; the capability and no round keys; everything in place; a ⊥ word of BIN[3]. -/
theorem witness_Crypt4Outcome :
    (ready false 0 0 []).params.hasX4 = false
      ∧ (let s := { ready true 0 0 [] with status := Status.reset }
         s.params.hasX4 = true ∧ s.status.rkv = false)
      ∧ (let s := ready true 0 0 []
         s.params.hasX4 = true ∧ s.status.rkv = true ∧ s.RkWritten ∧ ∀ l : Fin 4, s.BinWritten l)
      ∧ (let s := { ready true 0 0 [] with bin := { (ready true 0 0 []).bin with w3 := Quad.fill RegWord.bottom } }
         s.params.hasX4 = true ∧ s.status.rkv = true ∧ ∃ l w : Fin 4, ((s.bin.get l).get w).written = false) := by
  decide +kernel

theorem witness_Crypt4LanesEqualCrypt :
    let s := ready true 0 0 []
    s.params.hasX4 = true ∧ s.status.rkv = true ∧ s.RkWritten ∧ ∀ l : Fin 4, s.BinWritten l := by
  decide +kernel

/-- The lanes take turns, 32 times each. -/
theorem witness_CryptLanesAnySchedule :
    joined (runLanes (feistelRound mixT)
      (cryptLanes (Quad.fill stdWords) (Vector.replicate 32 0)) (List.replicate 32 [0, 1, 2, 3]).flatten) = true := by
  decide +kernel

theorem witness_TransformIsBijection : (List.replicate 16 (0 : Byte)).length = 16 := by decide

theorem witness_EncryptDecryptRoundTrip :
    (List.replicate 16 (0xFF : Byte)).length = 16 ∧ (List.replicate 16 (0x00 : Byte)).length = 16 := by decide

theorem witness_DirectionIsNotChecked : ∃ t, exec .sm4Crypt (ready false 0 0 []) = .next t :=
  after_next (p := fun _ => true) (by decide +kernel)

/-- The first and last indices of every range. -/
theorem witness_ScheduleRecurrence :
    0 < (blocks (pad [])).length ∧ (16 ≤ 16 ∧ 16 < 68) ∧ (16 ≤ 67 ∧ 67 < 68) ∧ 63 < 64 := by decide +kernel

theorem witness_CompressionRounds : 0 < 64 ∧ 63 < 64 := by decide

/-- The empty message and "abc"; after reset a ⊥ length; a length above the bytes written. -/
theorem witness_HashOutcome :
    (ready false 0 0 []).HoldsMessage [] ∧ (ready false 0 0 abc).HoldsMessage abc
      ∧ State.reset.msgLenLo.written = false
      ∧ ({ ready false 0 0 abc with msgLenHi := RegWord.bottom } : State).msgLenHi.written = false
      ∧ (let s := { ready false 0 0 abc with msgLenLo := RegWord.of 4 }
         ∃ a < s.msgLen, memRead s.msgbuf a = none) := by
  decide

/-- The chunked path and the sequential path, at the threshold and one below it; and the faults. -/
theorem witness_HashAutoOutcome :
    ((ready false 1 63 abc).HoldsMessage abc ∧ (ready false 1 63 abc).params.threshold < (pad abc).length)
      ∧ ((ready false 1 64 abc).HoldsMessage abc ∧ ¬ (ready false 1 64 abc).params.threshold < (pad abc).length)
      ∧ State.reset.msgLenLo.written = false
      ∧ (let s := { ready false 0 0 abc with msgLenLo := RegWord.of 4 }
         ∃ a < s.msgLen, memRead s.msgbuf a = none) := by
  decide +kernel

/-- As many partitions as blocks, and one. -/
theorem witness_FloorSplitCovers : (1 ≤ 3 ∧ 3 ≤ 3) ∧ (1 ≤ 1 ∧ 1 ≤ 3) := by decide

theorem witness_PartitionsCoverBlocks :
    1 ≤ 1 ∧ ∃ l ∈ partLanes floorSplit 1 (blocks (pad [])), l.state = sm3IV :=
  ⟨by decide, _, List.mem_map.2 ⟨(0, 1), by decide +kernel, rfl⟩, rfl⟩

theorem witness_MergeIsOrderFree : [sm3IV, Oct.fill 0].Perm [Oct.fill 0, sm3IV] := List.Perm.swap _ _ _

/-- Two lanes, the second one first. -/
theorem witness_PartitionLanesAnySchedule :
    joined (runLanes (fun v _ => v) (partLanes floorSplit 2 (blocks (pad (List.replicate 64 0x61)))) [1, 0]) = true := by
  decide +kernel

theorem witness_SinglePartitionIsStandard :
    nEff 4 (blocks (pad abc)).length = 1 ∧ nEff 1 (blocks (pad (List.replicate 64 0x61))).length = 1 := by decide +kernel

/-- The two sides of the boundary. -/
theorem witness_ReferenceThresholdBoundary :
    ({ hasX4 := false, extraLanes := 0, threshold := 1048576 } : Params).threshold = 1048576
      ∧ (List.replicate 1048567 (0 : Byte)).length = 1048567 ∧ (List.replicate 1048568 (0 : Byte)).length = 1048568 := by
  simp only [List.length_replicate, and_self]

theorem witness_DigestRendering : digestText (Oct.fill 0xA) = digestText (Oct.fill 0xA) := rfl

/-- Each kind of command, an illegal word, and a step that is no reset. -/
theorem witness_RoundKeyFlags :
    (∃ t, exec .sm4KeyexpEnc keyed = .next t) ∧ (∃ t, exec .sm4KeyexpDec keyed = .next t)
      ∧ ((∃ t, issue 0x00000000 keyed = .next t) ∧ (0x00000000 : Word) ≠ encode .sm4KeyexpEnc
          ∧ (0x00000000 : Word) ≠ encode .sm4KeyexpDec)
      ∧ ((∃ t, step (ready false 0 0 []) = .next t) ∧ (ready false 0 0 []).status.rkv = true
          ∧ (ready false 0 0 []).inputs.head? ≠ some .reset) :=
  ⟨⟨_, rfl⟩, ⟨_, rfl⟩, ⟨⟨_, rfl⟩, by decide, by decide⟩, ⟨_, rfl⟩, rfl, by decide⟩

theorem witness_ParFlag :
    (∃ t, exec .sm3Hash (ready false 0 0 []) = .next t)
      ∧ ((ready false 0 0 []).HoldsMessage [] ∧ ∃ t, exec .sm3HashAuto (ready false 0 0 []) = .next t)
      ∧ ((∃ t, issue 0x00000101 keyed = .next t) ∧ (0x00000101 : Word) ≠ encode .sm3Hash
          ∧ (0x00000101 : Word) ≠ encode .sm3HashAuto) :=
  ⟨⟨_, rfl⟩, ⟨by decide, ⟨_, rfl⟩⟩, ⟨_, rfl⟩, by decide, by decide⟩

/-- A command that ends with NO_KEY, and one with ILLEGAL. -/
theorem witness_FailedCommandWritesOnlyErr :
    (∃ t, issue 0x00000002 State.reset = .next t ∧ t.status.err ≠ .none)
      ∧ ∃ t, issue 0x00000102 State.reset = .next t ∧ t.status.err ≠ .none :=
  ⟨⟨_, rfl, by decide⟩, ⟨_, rfl, by decide⟩⟩

/-- One command for each error code. -/
theorem witness_ErrorCodes :
    (∃ t, issue 0x00000101 keyed = .next t ∧ t.status.err = .none)
      ∧ (∃ t, issue 0x00000201 keyed = .next t ∧ t.status.err = .illegal)
      ∧ (∃ t, issue 0x00000002 keyed = .next t ∧ t.status.err = .noKey) :=
  ⟨⟨_, rfl, rfl⟩, ⟨_, rfl, rfl⟩, ⟨_, rfl, rfl⟩⟩

/-- Reset, and a state with round keys, meet the invariant, and each kind of command faults from one of them or from a
state with one operand ⊥. -/
theorem witness_CommandFaults :
    State.reset.Inv ∧ (ready true 1 64 abc).Inv
      ∧ (let s := { ready true 1 64 abc with bin := Quad.fill (Quad.fill RegWord.bottom) }
         s.Inv ∧ faultOf (issue 0x00000002 s) = some .unwrittenRead ∧ faultOf (issue 0x00000003 s) = some .unwrittenRead)
      ∧ faultOf (issue 0x00000101 State.reset) = some .unwrittenRead
      ∧ faultOf (issue 0x00000110 State.reset) = some .unwrittenRead :=
  ⟨by decide +kernel, by decide +kernel, ⟨by decide +kernel, by decide +kernel, by decide +kernel⟩, rfl, rfl⟩

theorem witness_CommandFrame :
    (∃ t, exec .sm4KeyexpEnc keyed = .next t) ∧ (∃ t, exec .sm4Crypt keyed = .next t)
      ∧ ∃ t, exec .sm3Hash (ready false 0 0 []) = .next t :=
  ⟨⟨_, rfl⟩, ⟨_, rfl⟩, ⟨_, rfl⟩⟩

/-- Two different states with the same operands. -/
theorem witness_CommandReadsOnlyOperands :
    sameOperands .sm4KeyexpEnc keyed (ready false 0 0 abc) ∧ keyed.msgLenLo ≠ (ready false 0 0 abc).msgLenLo
      ∧ sameOperands .sm3Hash (ready false 0 0 []) { ready false 0 0 [] with msgbuf := [(0, 0x61)] } := by
  refine ⟨rfl, by decide, rfl, rfl, ?_⟩
  decide

/-- A step that is no command, a reset and a command that writes RK. -/
theorem witness_RkIsSnapshot :
    (∃ t, step keyed = .next t) ∧ (∃ t, step (keyed.setInputs [.reset]) = .next t)
      ∧ ∃ t, step (keyed.withFetchWord 32 0x00000101) = .next t :=
  ⟨⟨_, rfl⟩, ⟨_, rfl⟩, ⟨_, rfl⟩⟩

theorem witness_ReadOnlyRegisters :
    ((Reg.rk 31).readOnly = true
        ∧ (keyed.setInputs [.access (.write 32 (Reg.rk 31).offset 0)]).inputs
          = .access (.write 32 (Reg.rk 31).offset 0) :: [])
      ∧ (keyed.setInputs [.access (.read 32 0x000)]).inputs = .access (.read 32 0x000) :: [] := by
  decide

theorem witness_HostWriteThenRead :
    (Reg.bin 3 3).readWrite = true
      ∧ (keyed.setInputs [.access (.write 32 (Reg.bin 3 3).offset 7)]).inputs
        = .access (.write 32 (Reg.bin 3 3).offset 7) :: [] := by
  decide

/-- A defined register, a ⊥ one, and STATUS. -/
theorem witness_HostReadOutcome :
    (keyed.setInputs [.access (.read 32 (Reg.key 0).offset)]).inputs = .access (.read 32 (Reg.key 0).offset) :: []
      ∧ keyed.readReg (.key 0) = .ok 0x01234567 ∧ (∀ v : Word, keyed.readReg (.digest 0) ≠ .ok v)
      ∧ Reg.status = .status :=
  ⟨rfl, rfl, fun _ h => (by cases h), rfl⟩

/-- A defined MSGBUF byte, the byte after it, the last address and the first that does not exist. -/
theorem witness_HostReadOutcome_msgbuf :
    ((ready false 0 0 abc).setInputs [.access (.readMsg 2)]).inputs = .access (.readMsg 2) :: []
      ∧ memRead (ready false 0 0 abc).msgbuf 2 = some 0x63 ∧ memRead (ready false 0 0 abc).msgbuf 3 = none
      ∧ 2 < 2 ^ 64 ∧ (2 ^ 64 - 1 < 2 ^ 64 ∧ memRead (ready false 0 0 abc).msgbuf (2 ^ 64 - 1) = none)
      ∧ 2 ^ 64 ≤ 2 ^ 64 := by
  decide

/-- Bytes at the very end of the address space. -/
theorem witness_MsgbufWriteThenRead :
    (2 ^ 64 - 1) + [(0x61 : Byte)].length ≤ 2 ^ 64
      ∧ (keyed.setInputs [.access (.writeMsg (2 ^ 64 - 1) [0x61])]).inputs
        = .access (.writeMsg (2 ^ 64 - 1) [0x61]) :: []
      ∧ memWf keyed.msgbuf = true
      ∧ 2 ^ 64 < (2 ^ 64 - 1) + [(0x61 : Byte), 0x62].length := by
  decide

theorem witness_MeaninglessAccessesRefused :
    (keyed.setInputs [.access (.read 16 0x004)]).inputs = .access (.read 16 0x004) :: []
      ∧ (∀ a : Nat, Input.access (.read 16 0x004) ≠ .access (.readMsg a))
      ∧ ∀ (a : Nat) (bs : List Byte), Input.access (.read 16 0x004) ≠ .access (.writeMsg a bs) :=
  ⟨rfl, fun _ h => (by cases h), fun _ _ h => (by cases h)⟩

/-- Arguments of the right length, and a state whose BOUT[3], DIGEST and RK are defined. -/
theorem witness_HostApiCalls :
    (List.replicate 16 (0 : Byte)).length = 16 ∧ ([] : List Byte).length < 2 ^ 64
      ∧ (∀ w : Fin 4, ((((ready false 0 0 []).writeBout 3 stdWords).bout.get 3).get w).written = true)
      ∧ (∀ k : Fin 8, (((ready false 0 0 []).writeDigest sm3IV).digest.get k).written = true)
      ∧ (ready false 0 0 []).status.rkv = true ∧ (ready false 0 0 []).RkWritten := by
  decide +kernel

theorem witness_ResetLeaves : Reg.digest 7 ≠ .cmd ∧ Reg.digest 7 ≠ .status ∧ Reg.digest 7 ≠ .cap := by decide

theorem witness_ResetEvent : (keyed.setInputs [.reset]).inputs = .reset :: [] := rfl

/-- A state with everything in place, and a step from it that writes RK. -/
theorem witness_InvariantKept :
    (ready true 1 64 abc).Inv ∧ ∃ t, step ((ready true 1 64 abc).withFetchWord 32 0x00000001) = .next t :=
  ⟨by decide +kernel, ⟨_, rfl⟩⟩

theorem witness_CapIsConstant : ∃ t, step (keyed.setInputs [.access (.write 32 0x008 0)]) = .next t := ⟨_, rfl⟩

end Sys2Proof.Tests
end

section
/-! The byte lanes of a word, big-endian packing and rotation as arithmetic (spec/00_scope.md rules R2-R4), and the two
obligations about them. -/

namespace Sys2Proof.Machine

/-- Appending a byte multiplies by 256 and adds. -/
theorem toNat_append_byte {n : Nat} (x : BitVec n) (b : Byte) : (x ++ b).toNat = x.toNat * 2 ^ 8 + b.toNat := by
  rw [BitVec.toNat_append, ← Nat.shiftLeft_add_eq_or_of_lt b.isLt, Nat.shiftLeft_eq]

/-- R2: lane m is the field 24 - 8 m bits up. -/
theorem lane_toNat (w : Word) (m : Fin 4) : (lane w m).toNat = w.toNat / 2 ^ (24 - 8 * m.val) % 256 := by
  rw [lane, BitVec.extractLsb'_toNat, Nat.shiftRight_eq_div_pow]

/-- R3: packing as arithmetic. -/
theorem be32_toNat (b0 b1 b2 b3 : Byte) :
    (be32 b0 b1 b2 b3).toNat = b0.toNat * 2 ^ 24 + b1.toNat * 2 ^ 16 + b2.toNat * 2 ^ 8 + b3.toNat := by
  simp only [be32, toNat_append_byte]
  omega

@[simp] theorem lane_be32_three (b0 b1 b2 b3 : Byte) : lane (be32 b0 b1 b2 b3) 3 = b3 :=
  BitVec.extractLsb'_append_eq_right

@[simp] theorem lane_be32_two (b0 b1 b2 b3 : Byte) : lane (be32 b0 b1 b2 b3) 2 = b2 :=
  (BitVec.extractLsb'_append_eq_of_le (by decide)).trans BitVec.extractLsb'_append_eq_right

@[simp] theorem lane_be32_one (b0 b1 b2 b3 : Byte) : lane (be32 b0 b1 b2 b3) 1 = b1 :=
  (BitVec.extractLsb'_append_eq_of_le (by decide)).trans <|
    (BitVec.extractLsb'_append_eq_of_le (by decide)).trans BitVec.extractLsb'_append_eq_right

@[simp] theorem lane_be32_zero (b0 b1 b2 b3 : Byte) : lane (be32 b0 b1 b2 b3) 0 = b0 :=
  (BitVec.extractLsb'_append_eq_of_le (by decide)).trans <|
    (BitVec.extractLsb'_append_eq_of_le (by decide)).trans BitVec.extractLsb'_append_eq_left

/-- R3: unpacking undoes packing. -/
@[simp] theorem unbe32_be32 (b0 b1 b2 b3 : Byte) : unbe32 (be32 b0 b1 b2 b3) = [b0, b1, b2, b3] := by
  simp only [unbe32, lane_be32_zero, lane_be32_one, lane_be32_two, lane_be32_three]

/-- R3: packing undoes unpacking, since the four lanes are adjacent fields that together are the word. -/
@[simp] theorem be32_lane (w : Word) : be32 (lane w 0) (lane w 1) (lane w 2) (lane w 3) = w :=
  calc be32 (lane w 0) (lane w 1) (lane w 2) (lane w 3)
    _ = w.extractLsb' 24 8 ++ w.extractLsb' 16 8 ++ w.extractLsb' 8 8 ++ w.extractLsb' 0 8 := rfl
    _ = w.extractLsb' 16 16 ++ w.extractLsb' 8 8 ++ w.extractLsb' 0 8 := by
      rw [BitVec.extractLsb'_append_extractLsb'_eq_extractLsb' (show 24 = 16 + 8 from rfl)]
    _ = w.extractLsb' 8 24 ++ w.extractLsb' 0 8 := by
      rw [BitVec.extractLsb'_append_extractLsb'_eq_extractLsb' (show 16 = 8 + 8 from rfl)]
    _ = w.extractLsb' 0 32 := BitVec.extractLsb'_append_extractLsb'_eq_extractLsb' rfl
    _ = w := BitVec.extractLsb'_eq_self

/-- R3: inside the string, the word at an index packs the four bytes there. -/
theorem be32at_eq_be32 (s : List Byte) (k : Nat) (h : k + 3 < s.length) :
    be32at s k = be32 s[k] s[k + 1] s[k + 2] s[k + 3] := by
  rw [be32at, List.getD_eq_getElem s 0 (show k < s.length by omega),
    List.getD_eq_getElem s 0 (show k + 1 < s.length by omega),
    List.getD_eq_getElem s 0 (show k + 2 < s.length by omega), List.getD_eq_getElem s 0 h]

@[simp] theorem rotl_zero (x : Word) : rotl x 0 = x := rfl

/-- R4 for n > 0. The rotation is the two shifts or-ed. -/
theorem rotl_toNat_of_ne_zero (x : Word) {n : Nat} (hn : n ≠ 0) :
    (rotl x n).toNat = (x.toNat * 2 ^ n % 2 ^ 32) ||| (x.toNat / 2 ^ (32 - n)) := by
  rw [rotl, if_neg hn, BitVec.toNat_or, BitVec.toNat_shiftLeft, BitVec.toNat_ushiftRight, Nat.shiftLeft_eq,
    Nat.shiftRight_eq_div_pow]

/-- Settles O10: each clause is a law of the lanes or of packing. -/
theorem bigEndianPacking : Obligations.BigEndianPacking :=
  ⟨lane_toNat, fun b0 b1 b2 b3 => ⟨be32_toNat b0 b1 b2 b3, unbe32_be32 b0 b1 b2 b3⟩, be32_lane, be32at_eq_be32⟩

/-- Settles O11, by the two cases of the rotation's definition. -/
theorem rotateLeft : Obligations.RotateLeft := by
  intro x n _
  by_cases hn : n = 0
  · rw [if_pos hn, hn, rotl_zero]
  · rw [if_neg hn, rotl_toNat_of_ne_zero x hn]

end Sys2Proof.Machine
end

section
/-! What the host's next access does in one step, and what a CMD write can end in: the rules the statements about the
state and the host's view of it are derived from (spec/10_state.md rules R21, R22; spec/20_memory.md rule R51). -/

namespace Sys2Proof.Machine

/-- R70-R72: a word that decodes to a command is the word the encoder builds for it. -/
theorem eq_encode_of_decode {c : Word} {i : Instr} (h : decode c = .ok i) : c = encode i := by
  unfold decode at h
  split at h
  next r hr =>
    cases h
    have hmem := List.mem_of_find?_eq_some hr
    have hhit : r.hits c = true := List.find?_some (p := fun r : OpRow => r.hits c) hr
    exact ((OpRow.hits_iff (opcodeMap_mask r hmem) c).1 hhit).trans (opcodeMap_encode r hmem)
  next => cases h

/-- R51: the register map gives every register back at its own offset. -/
theorem regAt_offset (r : Reg) : regAt r.offset = some r := by
  cases r with
  | cmd | status | cap | msgLenLo | msgLenHi => rfl
  | key i | rk i | digest i => decide +revert
  | bin l w | bout l w => decide +revert

/-- R51: a register's offset is aligned and inside REGS. -/
theorem offset_aligned_inside (r : Reg) : r.offset % 4 = 0 ∧ r.offset < 0x200 := by
  cases r with
  | cmd | status | cap | msgLenLo | msgLenHi => decide
  | key i | rk i | digest i => simp only [Reg.offset]; omega
  | bin l w | bout l w => simp only [Reg.offset]; omega

/-- R52: every register is reached by a 32-bit access at its offset. -/
@[simp] theorem accessReg_offset (r : Reg) : accessReg 32 r.offset = .ok r := by
  obtain ⟨haligned, hinside⟩ := offset_aligned_inside r
  exact accessReg_eq_ok.2 ⟨rfl, haligned, hinside, regAt_offset r⟩

/-- R60: the host's next access takes effect on the state with that access taken off. -/
theorem step_access {s : State} {a : Access} {rest : List Input} (h : s.inputs = .access a :: rest) :
    step s = doAccess a (s.setInputs rest) := by
  simp only [step, h, takeInput]

/-- A read of a register by its offset. -/
theorem doAccess_read_offset (r : Reg) (s : State) :
    doAccess (.read 32 r.offset) s = withRead (s.readReg r) fun v => .next (s.pushRead (.word v)) := by
  simp only [doAccess, hostRead, accessReg_offset]

/-- R21, R22: a write to a register by its offset, other than CMD. -/
theorem doAccess_write_offset {r : Reg} (hr : r ≠ .cmd) (v : Word) (s : State) :
    doAccess (.write 32 r.offset v) s = .next (s.writeReg r v) := by
  simp only [doAccess, hostWrite, accessReg_offset, if_neg hr]

/-- R22: a write to CMD issues a command. -/
theorem doAccess_write_cmd (c : Word) (s : State) : doAccess (.write 32 0x000 c) s = issue c s := rfl

/-- R22, R71: issuing a word that decodes to a command runs the command. -/
theorem issue_of_decode {c : Word} {i : Instr} (h : decode c = .ok i) (s : State) : issue c s = exec i s := by
  simp only [issue, h]

@[simp] theorem tableWord_toNat (c : Word) : tableWord 32 c.toNat = c := by
  rw [tableWord, Nat.mod_eq_of_lt c.isLt, BitVec.ofNat_toNat, BitVec.setWidth_eq]

/-- Settles O7: the step is the CMD write's access, which issues the word; the word `withFetchWord` places is `c`. -/
theorem stepRunsIssuedCommand : Obligations.StepRunsIssuedCommand := by
  intro c i s hc
  have hrun : ∀ (u : State) (rest : List Input), u.inputs = .access (.write 32 0x000 c) :: rest →
      step u = exec i (u.setInputs rest) := fun u rest h => by
    rw [step_access h, doAccess_write_cmd, issue_of_decode hc]
  refine ⟨hrun s, ?_⟩
  calc step (s.withFetchWord 32 c.toNat)
    _ = exec i ((s.withFetchWord 32 c.toNat).setInputs s.inputs) :=
      hrun _ _ (by rw [State.withFetchWord, State.setInputs_inputs, tableWord_toNat])
    _ = exec i s := rfl

end Sys2Proof.Machine
end

section
/-! The registers as the host reads and writes them (spec/10_state.md rules R21, R40), and the statements about one host
access: O50, O51, O52. -/

namespace Sys2Proof.Machine

@[simp] theorem State.readReg_setInputs (s : State) (is : List Input) (r : Reg) :
    (s.setInputs is).readReg r = s.readReg r := by
  cases r <;> rfl

/-- R21: a write to a read-only register has no effect. -/
theorem State.writeReg_of_readOnly {r : Reg} (hr : r.readOnly = true) (s : State) (v : Word) : s.writeReg r v = s := by
  cases r with
  | status | cap | rk i | bout l w | digest i => rfl
  | cmd | msgLenLo | msgLenHi | key i | bin l w => cases hr

/-- R40: a register the host can write reads as the value just written. -/
theorem State.readReg_writeReg_self {r : Reg} (hr : r.readWrite = true) (s : State) (v : Word) :
    (s.writeReg r v).readReg r = .ok v := by
  cases r with
  | msgLenLo | msgLenHi => rfl
  | key i => simp only [writeReg, readReg, Quad.get_set_self, RegWord.read_of]
  | bin l w => simp only [writeReg, readReg, Quad.get_set_self, RegWord.read_of]
  | cmd | status | cap | rk i | bout l w | digest i => cases hr

/-- A write to one word of BIN leaves every other word of BIN as it was. -/
theorem bin_get_set_of_ne (q : Quad (Quad RegWord)) {l w l' w' : Fin 4} (c : RegWord) (h : ¬ (l' = l ∧ w' = w)) :
    ((q.set l ((q.get l).set w c)).get l').get w' = (q.get l').get w' := by
  by_cases hl : l' = l
  · subst hl
    rw [Quad.get_set_self, Quad.get_set_of_ne _ _ fun hw => h ⟨rfl, hw⟩]
  · rw [Quad.get_set_of_ne _ _ hl]

/-- R51: a host write leaves every register but its own as it reads. -/
theorem State.readReg_writeReg_of_ne {r q : Reg} (hq : q ≠ r) (s : State) (v : Word) :
    (s.writeReg r v).readReg q = s.readReg q := by
  cases r with
  | cmd | status | cap | rk i | bout l w | digest i => rfl
  | msgLenLo =>
    cases q with
    | msgLenLo => exact absurd rfl hq
    | _ => rfl
  | msgLenHi =>
    cases q with
    | msgLenHi => exact absurd rfl hq
    | _ => rfl
  | key i =>
    cases q with
    | key j =>
      have hij : j ≠ i := fun h => hq (h ▸ rfl)
      simp only [writeReg, readReg, Quad.get_set_of_ne _ _ hij]
    | _ => rfl
  | bin l w =>
    cases q with
    | bin l' w' =>
      have hne : ¬ (l' = l ∧ w' = w) := fun ⟨hl, hw⟩ => hq (hl ▸ hw ▸ rfl)
      simp only [writeReg, readReg, bin_get_set_of_ne _ _ hne]
    | _ => rfl

/-- R21, R40: CMD, STATUS and CAP are never ⊥. -/
theorem State.readReg_defined (s : State) {r : Reg} (hr : r = .cmd ∨ r = .status ∨ r = .cap) :
    ∃ v, s.readReg r = .ok v := by
  obtain rfl | rfl | rfl := hr <;> exact ⟨_, rfl⟩

/-- Settles O50: a read-only register keeps its value, and CMD reads 0. -/
theorem readOnlyRegisters : Obligations.ReadOnlyRegisters := by
  intro s rest
  refine ⟨fun r v hr h => ?_, fun h => ?_⟩
  · have hcmd : r ≠ .cmd := fun hc => by rw [hc] at hr; cases hr
    rw [step_access h, doAccess_write_offset hcmd, State.writeReg_of_readOnly hr]
    rfl
  · rw [step_access h]
    rfl

/-- Settles O51, by the laws of a register read after a register write. -/
theorem hostWriteThenRead : Obligations.HostWriteThenRead := by
  intro s r v rest hr h
  have hcmd : r ≠ .cmd := fun hc => by rw [hc] at hr; cases hr
  refine ⟨(s.setInputs rest).writeReg r v, ?_, ?_, State.readReg_writeReg_self hr _ v, fun q hq => ?_, ?_⟩
  · rw [step_access h, doAccess_write_offset hcmd]
  · rw [State.writeReg_inputs, State.setInputs_inputs]
  · rw [State.readReg_writeReg_of_ne hq, State.readReg_setInputs]
  · rw [State.writeReg_msgbuf, State.setInputs_msgbuf]

/-- A host read of a register: its word, or the model fault. -/
theorem step_read_reg {s : State} {r : Reg} {rest : List Input} (h : s.inputs = .access (.read 32 r.offset) :: rest) :
    step s = withRead (s.readReg r) fun v => .next ((s.setInputs rest).pushRead (.word v)) := by
  rw [step_access h, doAccess_read_offset, State.readReg_setInputs]

/-- A host read of a MSGBUF byte inside the address space: the byte, or the model fault. -/
theorem step_read_msg {s : State} {a : Nat} {rest : List Input} (h : s.inputs = .access (.readMsg a) :: rest)
    (ha : a < 2 ^ 64) :
    step s = withRead (msgByte s.msgbuf a) fun b => .next ((s.setInputs rest).pushRead (.byte b)) := by
  rw [step_access h]
  simp only [doAccess, hostReadMsg, if_pos ha, State.setInputs_msgbuf]

/-- Settles O52: each kind of read goes on with the cell's value, or stops with the fault its reading raised. -/
theorem hostReadOutcome : Obligations.HostReadOutcome := by
  intro s rest
  refine ⟨fun r h => ⟨fun v hv => ?_, fun hv => ?_, s.readReg_defined⟩,
    fun a h => ⟨fun b ha hb => ?_, fun ha hb => ?_, fun ha => ?_⟩⟩
  · rw [step_read_reg h, hv]
    rfl
  · obtain ⟨f, hf⟩ : ∃ f, s.readReg r = .error f := by
      cases hs : s.readReg r with
      | ok v => exact absurd hs (hv v)
      | error f => exact ⟨f, rfl⟩
    rw [step_read_reg h, hf, withRead_error, f.eq_unwrittenRead]
  · rw [step_read_msg h ha, msgByte_ok_iff.2 hb]
    rfl
  · rw [step_read_msg h ha, msgByte, hb]
    rfl
  · rw [step_access h]
    simp only [doAccess, hostReadMsg, if_neg (Nat.not_lt.2 ha)]

end Sys2Proof.Machine
end

section
/-! What a CMD write can end in, said once for all the commands, and the properties that every step but a reset keeps
(spec/10_state.md rules R22, R26-R29). -/

namespace Sys2Proof.Machine

/-- What a write of a word to CMD can leave, the computed values left open: an error code alone (R211), or the result
registers and status bits of the word's command, with ERR = NONE. -/
inductive IssueEffect (s : State) : Word → State → Prop
  /-- The command failed, or the word is illegal (R73, R143, R144). -/
  | failed (c : Word) (e : ErrCode) (he : e ≠ .none) : IssueEffect s c (s.setErr e)
  /-- R127. -/
  | keyexpEnc (v : Vector Word 32) :
    IssueEffect s (encode .sm4KeyexpEnc) (((s.writeRk v).setRoundKeysValid true).setErr .none)
  /-- R128. -/
  | keyexpDec (v : Vector Word 32) :
    IssueEffect s (encode .sm4KeyexpDec) (((s.writeRk v).setRoundKeysValid false).setErr .none)
  /-- R143. -/
  | crypt (q : Quad Word) (hkey : s.status.rkv = true) :
    IssueEffect s (encode .sm4Crypt) ((s.writeBout 0 q).setErr .none)
  /-- R144. -/
  | crypt4 (qs : Quad (Quad Word)) (hkey : s.status.rkv = true) :
    IssueEffect s (encode .sm4Crypt4) ((s.writeBoutAll qs).setErr .none)
  /-- R174. -/
  | hash (v : Oct Word) : IssueEffect s (encode .sm3Hash) (((s.writeDigest v).setPar false).setErr .none)
  /-- R196. -/
  | hashAuto (v : Oct Word) (b : Bool) :
    IssueEffect s (encode .sm3HashAuto) (((s.writeDigest v).setPar b).setErr .none)

/-- Each command has one of the effects of its word. -/
theorem exec_effect {i : Instr} {s t : State} (h : exec i s = .next t) : IssueEffect s (encode i) t := by
  cases i with
  | sm4KeyexpEnc =>
    obtain ⟨mk, -, rfl⟩ := execSm4KeyexpEnc_eq_next.1 h
    exact .keyexpEnc _
  | sm4KeyexpDec =>
    obtain ⟨mk, -, rfl⟩ := execSm4KeyexpDec_eq_next.1 h
    exact .keyexpDec _
  | sm4Crypt =>
    obtain ⟨-, rfl⟩ | ⟨hkey, p, rks, -, -, rfl⟩ := execSm4Crypt_eq_next.1 h
    · exact .failed _ .noKey nofun
    · exact .crypt _ hkey
  | sm4Crypt4 =>
    obtain ⟨-, rfl⟩ | ⟨-, -, rfl⟩ | ⟨-, hkey, ps, rks, -, -, rfl⟩ := execSm4Crypt4_eq_next.1 h
    · exact .failed _ .illegal nofun
    · exact .failed _ .noKey nofun
    · exact .crypt4 _ hkey
  | sm3Hash =>
    obtain ⟨m, -, rfl⟩ := execSm3Hash_eq_next.1 h
    exact .hash _
  | sm3HashAuto =>
    obtain ⟨m, -, rfl⟩ := execSm3HashAuto_eq_next.1 h
    exact .hashAuto _ _

/-- A CMD write that goes on has one of the effects of the word written. -/
theorem issue_effect {c : Word} {s t : State} (h : issue c s = .next t) : IssueEffect s c t := by
  obtain ⟨i, hc, ht⟩ | ⟨-, rfl⟩ := issue_eq_next.1 h
  · exact eq_encode_of_decode hc ▸ exec_effect ht
  · exact .failed c .illegal nofun

/-- A property that everything a step does, apart from a reset, keeps. -/
structure KeptByAccesses (P : State → Prop) : Prop where
  setInputs : ∀ {s : State} (is : List Input), P s → P (s.setInputs is)
  pushRead : ∀ {s : State} (v : ReadBack), P s → P (s.pushRead v)
  writeReg : ∀ {s : State} (r : Reg) (v : Word), P s → P (s.writeReg r v)
  writeMsg : ∀ {s : State} {a : Nat} {bs : List Byte}, a + bs.length ≤ 2 ^ 64 → P s → P (s.writeMsg a bs)
  issue : ∀ {s t : State} {c : Word}, IssueEffect s c t → P s → P t

/-- Such a property is kept by an access. -/
theorem KeptByAccesses.of_doAccess {P : State → Prop} (hP : KeptByAccesses P) {a : Access} {s t : State}
    (h : doAccess a s = .next t) (hs : P s) : P t := by
  obtain ⟨_, _, r, v, -, -, -, rfl⟩ | ⟨_, _, c, -, -, hc⟩ | ⟨_, _, v, r, -, -, -, rfl⟩
    | ⟨_, b, -, -, -, rfl⟩ | ⟨a, bs, -, hle, rfl⟩ := doAccess_eq_next.1 h
  · exact hP.pushRead _ hs
  · exact hP.issue (issue_effect hc) hs
  · exact hP.writeReg r v hs
  · exact hP.pushRead _ hs
  · exact hP.writeMsg hle hs

/-- Such a property is kept by a step, when it holds after the step's reset in case the step is one. -/
theorem KeptByAccesses.of_step {P : State → Prop} (hP : KeptByAccesses P) {s t : State} (h : step s = .next t) (hs : P s)
    (hreset : ∀ rest, s.inputs = .reset :: rest → P (resetEvent (s.setInputs rest))) : P t := by
  obtain ⟨-, rfl⟩ | ⟨a, rest, -, ha⟩ | ⟨p, rest, ops, -, -, rfl⟩ | ⟨rest, hr, rfl⟩ := step_eq_next.1 h
  · exact hs
  · exact hP.of_doAccess ha (hP.setInputs rest hs)
  · exact hP.setInputs _ hs
  · exact hreset rest hr

end Sys2Proof.Machine
end

section
/-! STATUS and CAP as words, and what writes RKV, RKDIR, PAR and the parameters (spec/10_state.md rules R25-R28): O40,
O41, O42, O60. -/

namespace Sys2Proof.Machine

/-- A flag as a word has the flag in bit 0 and 0 elsewhere. -/
theorem bit_getLsbD (b : Bool) (i : Nat) : (bit b).getLsbD i = (b && decide (i = 0)) := by
  cases b
  · exact BitVec.getLsbD_zero
  · simp [bit, BitVec.getLsbD_one]

/-- The error codes fit in two bits (R210). -/
theorem ErrCode.code_getLsbD_of_le (e : ErrCode) {i : Nat} (hi : 2 ≤ i) : e.code.getLsbD i = false := by
  have hlt : e.code.toNat < 2 ^ 2 := by cases e <;> decide
  exact Nat.testBit_lt_two_pow (hlt.trans_le (Nat.pow_le_pow_right (by decide) hi))

/-- R25: STATUS bit by bit. -/
theorem Status.toWord_getLsbD (st : Status) (i : Nat) :
    st.toWord.getLsbD i
      = ((st.rkv && decide (i = 0)) || (st.rkdir && decide (i = 1)) || (st.par && decide (i = 2))
          || (decide (4 ≤ i) && st.err.code.getLsbD (i - 4))) := by
  have hdir : (decide (i < 32) && !decide (i < 1) && decide (i - 1 = 0)) = decide (i = 1) := by grind
  have hpar : (decide (i < 32) && !decide (i < 2) && decide (i - 2 = 0)) = decide (i = 2) := by grind
  have herr : (decide (i < 32) && !decide (i < 4) && st.err.code.getLsbD (i - 4))
      = (decide (4 ≤ i) && st.err.code.getLsbD (i - 4)) := by
    by_cases h : i < 32
    · simp only [h, decide_true, Bool.true_and, ← Nat.not_lt, decide_not]
    · simp [h, st.err.code_getLsbD_of_le (show 2 ≤ i - 4 by omega)]
  simp only [toWord, BitVec.getLsbD_or, BitVec.getLsbD_shiftLeft, bit_getLsbD,
    Bool.and_left_comm _ st.rkdir, Bool.and_left_comm _ st.par, hdir, hpar, herr]

/-- R25: ERR is the field 7:4 of STATUS. -/
theorem Status.toWord_errField (st : Status) : st.toWord.extractLsb' 4 4 = st.err.code.setWidth 4 := by
  refine BitVec.eq_of_getLsbD_eq fun i hi => ?_
  have hlow : 4 + i ≠ 0 ∧ 4 + i ≠ 1 ∧ 4 + i ≠ 2 := by omega
  simp [Status.toWord_getLsbD, hi, hlow]

/-- Settles O40, from STATUS bit by bit. -/
theorem statusLayout : Obligations.StatusLayout := by
  refine ⟨fun st => ⟨?_, ?_, ?_, ?_, ?_, fun i hi => ?_⟩, fun s v => State.writeReg_status s .status v⟩
  · exact (st.toWord_getLsbD 0).trans (by simp)
  · exact (st.toWord_getLsbD 1).trans (by simp)
  · exact (st.toWord_getLsbD 2).trans (by simp)
  · exact (st.toWord_getLsbD 3).trans (by simp)
  · rw [Status.toWord_errField]
    cases st.err <;> rfl
  · have herr := st.err.code_getLsbD_of_le (show 2 ≤ i - 4 by omega)
    have hlow : i ≠ 0 ∧ i ≠ 1 ∧ i ≠ 2 := by omega
    simp [Status.toWord_getLsbD, herr, hlow]

/-- The message is read exactly when the state holds it (R32, R53). -/
theorem State.readMessage_eq_ok_iff_holdsMessage {s : State} {m : List Byte} :
    s.readMessage = .ok m ↔ s.HoldsMessage m := by
  rw [State.readMessage_eq_ok, State.readMsgLen_eq_ok, and_assoc, and_assoc]
  rfl

/-- Once there are round keys, nothing but a reset takes them away (R26). -/
theorem rkv_kept : KeptByAccesses fun s => s.status.rkv = true where
  setInputs _ hs := hs
  pushRead _ hs := hs
  writeReg r v hs := by rwa [State.writeReg_status]
  writeMsg _ hs := hs
  issue h hs := by
    cases h with
    | keyexpEnc v | keyexpDec v => rfl
    | _ => exact hs

/-- Settles O41, from what each CMD write can leave. -/
theorem roundKeyFlags : Obligations.RoundKeyFlags := by
  refine ⟨fun s t h => ?_, fun s t h => ?_, fun c s t h henc hdec => ?_, fun s t h hs hreset => ?_⟩
  · obtain ⟨mk, -, rfl⟩ := execSm4KeyexpEnc_eq_next.1 h
    exact ⟨rfl, rfl, rfl⟩
  · obtain ⟨mk, -, rfl⟩ := execSm4KeyexpDec_eq_next.1 h
    exact ⟨rfl, rfl, rfl⟩
  · cases issue_effect h with
    | keyexpEnc v => exact absurd rfl henc
    | keyexpDec v => exact absurd rfl hdec
    | _ => exact ⟨rfl, rfl⟩
  · exact rkv_kept.of_step h hs fun rest hr => absurd (congrArg List.head? hr) hreset

/-- Settles O42: the two SM3 commands write PAR, and the message `sm3.hash.auto` reads is the one the state holds. -/
theorem parFlag : Obligations.ParFlag := by
  refine ⟨fun s t h => ?_, fun s t m hm h => ?_, fun c s t h hhash hauto => ?_⟩
  · obtain ⟨m, -, rfl⟩ := execSm3Hash_eq_next.1 h
    exact ⟨rfl, rfl⟩
  · obtain ⟨m', hm', rfl⟩ := execSm3HashAuto_eq_next.1 h
    rw [State.readMessage_eq_ok_iff_holdsMessage.2 hm] at hm'
    cases hm'
    exact ⟨rfl, decide_eq_true_iff⟩
  · cases issue_effect h with
    | hash v => exact absurd rfl hhash
    | hashAuto v b => exact absurd rfl hauto
    | _ => rfl

/-- No access writes the parameters (R27). -/
theorem params_kept (p : Params) : KeptByAccesses fun s => s.params = p where
  setInputs _ hs := hs
  pushRead _ hs := hs
  writeReg r v hs := by rwa [State.writeReg_params]
  writeMsg _ hs := hs
  issue h hs := by cases h <;> exact hs

/-- CAP as the host reads it is X4, in bit 0 (R27). -/
theorem State.readReg_cap (s : State) :
    s.readReg .cap = .ok (BitVec.setWidth 32 (BitVec.ofBool s.params.hasX4)) := by
  have hbit : ∀ b : Bool, bit b = BitVec.setWidth 32 (BitVec.ofBool b) := by decide
  exact congrArg Except.ok (hbit s.params.hasX4)

/-- Settles O60: CAP is its parameter in every state, and no step writes a parameter, a reset included. -/
theorem capIsConstant : Obligations.CapIsConstant :=
  ⟨State.reset.readReg_cap, State.readReg_cap, fun s _ h => (params_kept s.params).of_step h rfl fun _ _ => rfl⟩

end Sys2Proof.Machine
end

section
/-! The invariant of the block (spec/10_state.md rules R24-R28, R31, R33, R40; spec/20_memory.md rule R53): each
operation on the state keeps it, and so does every step: O59. -/

namespace Sys2Proof.Machine

/-- A defined word has nothing under a mark. -/
theorem RegWord.canonical_of (v : Word) : (RegWord.of v).Canonical := nofun

/-- A reset word is canonical. -/
theorem RegWord.canonical_bottom : RegWord.bottom.Canonical := fun _ => rfl

/-- Replacing an element by one with a property keeps the property of all elements. -/
theorem Quad.forall_get_set {α : Type} {p : α → Prop} {q : Quad α} {x : α} (i : Fin 4)
    (hq : ∀ j, p (q.get j)) (hx : p x) (j : Fin 4) : p ((q.set i x).get j) := by
  by_cases hj : j = i
  · rw [hj, Quad.get_set_self]
    exact hx
  · rw [Quad.get_set_of_ne _ _ hj]
    exact hq j

/-- Every word of a lane is canonical. -/
abbrev LaneCanonical (q : Quad RegWord) : Prop := ∀ w : Fin 4, (q.get w).Canonical

/-- A BOUT lane is written as a whole or not at all, and only with RKV. -/
abbrev LaneWhole (rkv : Bool) (q : Quad RegWord) : Prop :=
  ∀ w : Fin 4, (q.get w).written = (q.get 0).written ∧ ((q.get w).written = true → rkv = true)

/-- A lane of defined words is canonical. -/
theorem laneCanonical_map_of (q : Quad Word) : LaneCanonical (q.map RegWord.of) := fun w =>
  Quad.get_map RegWord.of q w ▸ RegWord.canonical_of _

/-- A lane of defined words is whole, once there are round keys. -/
theorem laneWhole_map_of {rkv : Bool} (hkey : rkv = true) (q : Quad Word) : LaneWhole rkv (q.map RegWord.of) := by
  intro w
  simp only [Quad.get_map, RegWord.of_written, true_and]
  exact fun _ => hkey

/-- The reset state meets the invariant: every register word is ⊥, and STATUS is 0 (R241). -/
theorem State.inv_reset : State.reset.Inv := by
  have hrk (i : Fin 32) : State.reset.rk[i] = RegWord.bottom := Vector.getElem_replicate ..
  have hkey (i : Fin 4) : State.reset.key.get i = RegWord.bottom := Quad.get_fill _ i
  have hlane (l w : Fin 4) : (State.reset.bout.get l).get w = RegWord.bottom := by
    simp only [State.reset, Quad.get_fill]
  have hdig (k : Fin 8) : State.reset.digest.get k = RegWord.bottom := Oct.get_fill _ k
  have hbottom := RegWord.canonical_bottom
  refine ⟨memWf_reset, fun i => congrArg RegWord.written (hrk i), fun _ => rfl, fun l w => ?_,
    fun k => ⟨congrArg RegWord.written (hdig k), nofun⟩, fun i => hkey i ▸ hbottom, fun i => hrk i ▸ hbottom,
    fun l w => hlane l w ▸ hbottom, fun l w => hlane l w ▸ hbottom, hbottom, hbottom, fun k => hdig k ▸ hbottom⟩
  rw [hlane, hlane]
  exact ⟨rfl, nofun⟩

/-- The reset event restores the invariant (R240). -/
theorem State.Inv.resetEvent (s : State) : (resetEvent s).Inv := State.inv_reset

/-- ERR is in no clause of the invariant. -/
theorem State.Inv.setErr {s : State} (hs : s.Inv) (e : ErrCode) : (s.setErr e).Inv := hs

/-- R53: a MSGBUF write inside the address space keeps the buffer canonical. -/
theorem State.Inv.writeMsg {s : State} (hs : s.Inv) {a : Nat} {bs : List Byte} (h : a + bs.length ≤ 2 ^ 64) :
    (s.writeMsg a bs).Inv := by
  obtain ⟨hmem, hrest⟩ := hs
  exact ⟨memWf_memWriteBytes bs hmem h, hrest⟩

/-- R40: a host write leaves its word defined and every other as it was. -/
theorem State.Inv.writeReg {s : State} (hs : s.Inv) (r : Reg) (v : Word) : (s.writeReg r v).Inv := by
  obtain ⟨hmem, hrk, hdir, hbout, hdig, hkey, hrkc, hbin, hboutc, hlo, hhi, hdigc⟩ := hs
  have hv := RegWord.canonical_of v
  cases r with
  | cmd | status | cap | rk i | bout l w | digest i =>
    exact ⟨hmem, hrk, hdir, hbout, hdig, hkey, hrkc, hbin, hboutc, hlo, hhi, hdigc⟩
  | msgLenLo => exact ⟨hmem, hrk, hdir, hbout, hdig, hkey, hrkc, hbin, hboutc, hv, hhi, hdigc⟩
  | msgLenHi => exact ⟨hmem, hrk, hdir, hbout, hdig, hkey, hrkc, hbin, hboutc, hlo, hv, hdigc⟩
  | key i =>
    exact ⟨hmem, hrk, hdir, hbout, hdig, Quad.forall_get_set i hkey hv, hrkc, hbin, hboutc, hlo, hhi, hdigc⟩
  | bin l w =>
    have hlane : LaneCanonical ((s.bin.get l).set w (RegWord.of v)) := Quad.forall_get_set w (hbin l) hv
    have hbin' := Quad.forall_get_set (p := LaneCanonical) l hbin hlane
    exact ⟨hmem, hrk, hdir, hbout, hdig, hkey, hrkc, hbin', hboutc, hlo, hhi, hdigc⟩

/-- R24, R26: with RK written as a whole RKV is set, and then RKDIR is free. -/
theorem State.Inv.writeRoundKeys {s : State} (hs : s.Inv) (v : Vector Word 32) (d : Bool) :
    ((s.writeRk v).setRoundKeysValid d).Inv := by
  obtain ⟨hmem, -, -, hbout, hdig, hkey, -, hrest⟩ := hs
  have hof (i : Fin 32) : (v.map RegWord.of)[i] = RegWord.of v[i] := Vector.getElem_map ..
  refine ⟨hmem, fun i => ?_, nofun, fun l w => ⟨(hbout l w).1, fun _ => rfl⟩, hdig, hkey, fun i => ?_, hrest⟩
  · exact congrArg RegWord.written (hof i)
  · exact hof i ▸ RegWord.canonical_of _

/-- R31: with round keys in place, BOUT may be replaced by lanes that are whole and canonical. -/
theorem State.Inv.setBout {s : State} (hs : s.Inv) {b : Quad (Quad RegWord)}
    (hwhole : ∀ l, LaneWhole s.status.rkv (b.get l)) (hcanon : ∀ l, LaneCanonical (b.get l)) :
    State.Inv { s with bout := b } := by
  obtain ⟨hmem, hrk, hdir, -, hdig, hkey, hrkc, hbin, -, hrest⟩ := hs
  exact ⟨hmem, hrk, hdir, hwhole, hdig, hkey, hrkc, hbin, hcanon, hrest⟩

/-- R31, R143: a BOUT lane is written as a whole, and only once there are round keys. -/
theorem State.Inv.writeBout {s : State} (hs : s.Inv) (hkey : s.status.rkv = true) (l : Fin 4) (q : Quad Word) :
    (s.writeBout l q).Inv := by
  have ⟨_, _, _, hwhole, _, _, _, _, hcanon, _⟩ := hs
  exact hs.setBout (Quad.forall_get_set (p := LaneWhole s.status.rkv) l hwhole (laneWhole_map_of hkey q))
    (Quad.forall_get_set (p := LaneCanonical) l hcanon (laneCanonical_map_of q))

/-- R31, R144: the four BOUT lanes are written as a whole, and only once there are round keys. -/
theorem State.Inv.writeBoutAll {s : State} (hs : s.Inv) (hkey : s.status.rkv = true) (qs : Quad (Quad Word)) :
    (s.writeBoutAll qs).Inv := by
  have hlane (l : Fin 4) := Quad.get_map (fun q : Quad Word => q.map RegWord.of) qs l
  exact hs.setBout (fun l => hlane l ▸ laneWhole_map_of hkey _) (fun l => hlane l ▸ laneCanonical_map_of _)

/-- R28, R33: DIGEST is written as a whole, with PAR. -/
theorem State.Inv.writeDigest {s : State} (hs : s.Inv) (v : Oct Word) (b : Bool) :
    ((s.writeDigest v).setPar b).Inv := by
  obtain ⟨hmem, hrk, hdir, hbout, -, hkey, hrkc, hbin, hboutc, hlo, hhi, -⟩ := hs
  have hof (k : Fin 8) : (v.map RegWord.of).get k = RegWord.of (v.get k) := Oct.get_map RegWord.of v k
  have hwritten (k : Fin 8) : ((v.map RegWord.of).get k).written = true := congrArg RegWord.written (hof k)
  exact ⟨hmem, hrk, hdir, hbout, fun k => ⟨hwritten k, fun _ => hwritten k⟩, hkey, hrkc, hbin, hboutc, hlo, hhi,
    fun k => hof k ▸ RegWord.canonical_of _⟩

/-- Everything a step does, apart from a reset, keeps the invariant. -/
theorem inv_kept : KeptByAccesses State.Inv where
  setInputs _ hs := hs
  pushRead _ hs := hs
  writeReg r v hs := hs.writeReg r v
  writeMsg hle hs := hs.writeMsg hle
  issue h hs := by
    cases h with
    | failed _ e _ => exact hs.setErr e
    | keyexpEnc v => exact (hs.writeRoundKeys v true).setErr .none
    | keyexpDec v => exact (hs.writeRoundKeys v false).setErr .none
    | crypt q hkey => exact (hs.writeBout hkey 0 q).setErr .none
    | crypt4 qs hkey => exact (hs.writeBoutAll hkey qs).setErr .none
    | hash v => exact (hs.writeDigest v false).setErr .none
    | hashAuto v b => exact (hs.writeDigest v b).setErr .none

/-- Settles O59: an access, a CMD write and the expansion of a line keep the invariant, and a reset restores it. -/
theorem invariantKept : Obligations.InvariantKept :=
  fun s _ hs h => inv_kept.of_step h hs fun rest _ => State.Inv.resetEvent (s.setInputs rest)

end Sys2Proof.Machine
end

section
/-! The register map in both directions (spec/20_memory.md rule R51) and which inputs have no meaning (rule R52,
spec/60_exceptions.md rule R213): O6, O54. -/

namespace Sys2Proof.Machine

/-- The lane and word of entry `k` of a four by four register group stand at entry `k`. -/
theorem laneWord_offset (k : Fin 16) : 16 * (laneWord k).1.val + 4 * (laneWord k).2.val = 4 * k.val := by
  simp only [laneWord]
  omega

/-- R51: a register stands at its own offset and at no other. -/
theorem regAt_eq_some {off : Nat} {r : Reg} : regAt off = some r ↔ off = r.offset := by
  refine ⟨fun h => ?_, fun h => h ▸ regAt_offset r⟩
  simp only [regAt] at h
  iterate 5
    split at h
    · cases h; assumption
  simp only [Option.orElse_eq_some, Option.map_eq_some_iff] at h
  obtain ⟨i, hi, rfl⟩ | ⟨-, ⟨i, hi, rfl⟩ | ⟨-, ⟨k, hk, rfl⟩ | ⟨-, ⟨k, hk, rfl⟩ | ⟨-, i, hi, rfl⟩⟩⟩⟩ := h
  · exact (wordIndex_eq_some (by decide)).1 hi
  · exact (wordIndex_eq_some (by decide)).1 hi
  · have := laneWord_offset k
    rw [(wordIndex_eq_some (by decide)).1 hk, Reg.offset]
    omega
  · have := laneWord_offset k
    rw [(wordIndex_eq_some (by decide)).1 hk, Reg.offset]
    omega
  · exact (wordIndex_eq_some (by decide)).1 hi

/-- Settles O6: each line of the statement's map is the register's offset. -/
theorem registerMap : Obligations.RegisterMap := by
  refine ⟨fun r => ⟨regAt_offset r, offset_aligned_inside r⟩, fun off r => ?_⟩
  cases r <;> exact regAt_eq_some

/-- R51: no register stands at a reserved offset. -/
theorem reservedOff_offset (r : Reg) : reservedOff r.offset = false := by
  cases r with
  | cmd | status | cap | msgLenLo | msgLenHi => rfl
  | key i | rk i | digest i => decide +revert
  | bin l w | bout l w => decide +revert

/-- R51: an aligned offset inside REGS that is not reserved is a register's. -/
theorem exists_offset_of_not_reserved {off : Nat} (h4 : off % 4 = 0) (hlt : off < 0x200)
    (hres : reservedOff off = false) : ∃ r : Reg, off = r.offset := by
  simp only [reservedOff, Bool.or_eq_false_iff, Bool.and_eq_false_iff, decide_eq_false_iff_not] at hres
  obtain rfl | rfl | rfl | rfl | rfl | h | h | h | h | h : off = 0x000 ∨ off = 0x004 ∨ off = 0x008 ∨ off = 0x010
      ∨ off = 0x014 ∨ (0x020 ≤ off ∧ off < 0x030) ∨ (0x080 ≤ off ∧ off < 0x100) ∨ (0x100 ≤ off ∧ off < 0x140)
      ∨ (0x140 ≤ off ∧ off < 0x180) ∨ (0x180 ≤ off ∧ off < 0x1A0) := by omega
  · exact ⟨.cmd, rfl⟩
  · exact ⟨.status, rfl⟩
  · exact ⟨.cap, rfl⟩
  · exact ⟨.msgLenLo, rfl⟩
  · exact ⟨.msgLenHi, rfl⟩
  · exact ⟨.key ⟨(off - 0x020) / 4, by omega⟩, by simp only [Reg.offset]; omega⟩
  · exact ⟨.rk ⟨(off - 0x080) / 4, by omega⟩, by simp only [Reg.offset]; omega⟩
  · exact ⟨.bin ⟨(off - 0x100) / 16, by omega⟩ ⟨off / 4 % 4, by omega⟩, by simp only [Reg.offset]; omega⟩
  · exact ⟨.bout ⟨(off - 0x140) / 16, by omega⟩ ⟨off / 4 % 4, by omega⟩, by simp only [Reg.offset]; omega⟩
  · exact ⟨.digest ⟨(off - 0x180) / 4, by omega⟩, by simp only [Reg.offset]; omega⟩

/-- R52, R213 (a): a register access reaches a register exactly when it is 32 bits wide, aligned, inside REGS and not at
a reserved offset. -/
theorem exists_accessReg_eq_ok {width off : Nat} :
    (∃ r, accessReg width off = .ok r) ↔ width = 32 ∧ off % 4 = 0 ∧ off < 0x200 ∧ reservedOff off = false := by
  simp only [accessReg_eq_ok, regAt_eq_some]
  constructor
  · rintro ⟨r, hw, h4, hlt, rfl⟩
    exact ⟨hw, h4, hlt, reservedOff_offset r⟩
  · rintro ⟨hw, h4, hlt, hres⟩
    obtain ⟨r, hr⟩ := exists_offset_of_not_reserved h4 hlt hres
    exact ⟨r, hw, h4, hlt, hr⟩

/-- R217: a command that ends with an error code is not refused. -/
theorem failWith_ne_refused (e : ErrCode) (s : State) (x : Refusal) : failWith e s ≠ .refused x := by simp [failWith]

/-- R29: a command that succeeds is not refused. -/
theorem succeed_ne_refused (s : State) (x : Refusal) : succeed s ≠ .refused x := by simp [succeed]

/-- R80: no command is refused, in any state. -/
theorem exec_not_refused (i : Instr) (s : State) (x : Refusal) : exec i s ≠ .refused x := by
  cases i with
  | sm4KeyexpEnc | sm4KeyexpDec | sm3Hash | sm3HashAuto => exact withRead_not_refused (fun _ => succeed_ne_refused _) x
  | sm4Crypt =>
    simp only [exec, execSm4Crypt]
    split
    · exact withRead_not_refused (fun _ => withRead_not_refused fun _ => succeed_ne_refused _) x
    · exact failWith_ne_refused _ s x
  | sm4Crypt4 =>
    simp only [exec, execSm4Crypt4]
    split
    · split
      · exact withRead_not_refused (fun _ => withRead_not_refused fun _ => succeed_ne_refused _) x
      · exact failWith_ne_refused _ s x
    · exact failWith_ne_refused _ s x

/-- R73, R80: a CMD write of any word is not refused. -/
theorem issue_not_refused (c : Word) (s : State) (x : Refusal) : issue c s ≠ .refused x := by
  unfold issue
  split
  · exact exec_not_refused _ s x
  · exact failWith_ne_refused _ s x

/-- R52: a register read is refused exactly when it reaches no register. -/
theorem hostRead_refused_iff {width off : Nat} {s : State} :
    (∃ x, hostRead width off s = .refused x)
      ↔ ¬ (width = 32 ∧ off % 4 = 0 ∧ off < 0x200 ∧ reservedOff off = false) := by
  rw [← exists_accessReg_eq_ok, hostRead]
  cases accessReg width off with
  | error e => simp
  | ok r => simp [withRead_eq_refused]

/-- R52: a register write is refused exactly when it reaches no register. -/
theorem hostWrite_refused_iff {width off : Nat} {v : Word} {s : State} :
    (∃ x, hostWrite width off v s = .refused x)
      ↔ ¬ (width = 32 ∧ off % 4 = 0 ∧ off < 0x200 ∧ reservedOff off = false) := by
  rw [← exists_accessReg_eq_ok, hostWrite]
  cases accessReg width off with
  | error e => simp
  | ok r => by_cases hr : r = .cmd <;> simp [hr, issue_not_refused]

/-- R213 (b): writing a key or block argument is refused exactly when it is not 16 bytes long. -/
theorem wr16_error_iff {r : Fin 4 → Reg} {bytes : List Byte} :
    (∃ x, wr16 r bytes = .error x) ↔ bytes.length ≠ 16 := by
  unfold wr16
  split <;> simp_all

/-- Going on with the accesses of an argument adds no refusal. -/
theorem except_map_error_iff {α β ε : Type} {f : α → β} {r : Except ε α} : (∃ x, r.map f = .error x) ↔ ∃ x, r = .error x := by
  cases r <;> simp [Except.map]

/-- R213 (b): the calls of the host API that are refused are those with a key or block argument that is not 16 bytes
long. -/
theorem expand_error_iff {p : Pseudo} :
    (∃ x, Pseudo.expand p = .error x)
      ↔ ∃ k : List Byte, k.length ≠ 16
          ∧ (p = .setkey k ∨ (∃ l : Fin 4, p = .setblk l k) ∨ (∃ e w : Bool, p = .expandKey k e w)
              ∨ p = .transformBlock k) := by
  cases p with
  | command i | word c | getblk l | setmsg m | getdigest | hashSm3 m => simp [Pseudo.expand]
  | setkey key | setblk l key => simp [Pseudo.expand, wr16_error_iff]
  | expandKey key e w | transformBlock key => simp [Pseudo.expand, except_map_error_iff, wr16_error_iff]

/-- A line of the host's program is refused exactly when it has no expansion. -/
theorem takeInput_pseudo_refused_iff {p : Pseudo} {s : State} :
    (∃ x, takeInput (.pseudo p) s = .refused x) ↔ ∃ x, Pseudo.expand p = .error x := by
  simp only [takeInput]
  cases Pseudo.expand p <;> simp

/-- R60: a step takes the host's next input, on the state with that input taken off. -/
theorem step_takeInput {s : State} {x : Input} {rest : List Input} (h : s.inputs = x :: rest) :
    step s = takeInput x (s.setInputs rest) := by
  simp only [step, h]

/-- Settles O54, by the kinds of input: a register access is refused when it reaches no register, a line of the host's
program when it has no expansion, and a reset never. -/
theorem meaninglessAccessesRefused : Obligations.MeaninglessAccessesRefused := by
  intro s x rest h hread hwrite
  rw [step_takeInput h]
  cases x with
  | access a =>
    cases a with
    | read width off => simp [takeInput, doAccess, hostRead_refused_iff]
    | write width off v => simp [takeInput, doAccess, hostWrite_refused_iff]
    | readMsg a => exact absurd rfl (hread a)
    | writeMsg a bs => exact absurd rfl (hwrite a bs)
  | pseudo p => simp [takeInput_pseudo_refused_iff, expand_error_iff]
  | reset => simp [takeInput]

end Sys2Proof.Machine
end

section
/-! The host's accesses one at a time (spec/20_memory.md rule R60, spec/30_encoding.md rule R79): no access and no reset
reads or writes the accesses still to come, so it does the same whatever they are: O9. -/

namespace Sys2Proof.Machine

/-- An outcome with its next state, if it has one, changed. -/
def mapNext (f : State → State) : Result → Result
  | .next t => .next (f t)
  | .fault x => .fault x
  | .refused x => .refused x

/-- Going on with a read commutes with a change of the next state. -/
theorem mapNext_withRead {α : Type} (f : State → State) (r : Except Fault α) (k : α → Result) :
    mapNext f (withRead r k) = withRead r fun a => mapNext f (k a) := by
  cases r <;> rfl

/-- Choosing between outcomes commutes with a change of the next state. -/
theorem mapNext_ite (f : State → State) (c : Prop) [Decidable c] (o o' : Result) :
    mapNext f (if c then o else o') = if c then mapNext f o else mapNext f o' :=
  apply_ite (mapNext f) c o o'

/-- R75: a command depends on nothing of the accesses still to come, and leaves them. -/
theorem exec_setInputs (i : Instr) (s : State) (is : List Input) :
    exec i (s.setInputs is) = mapNext (·.setInputs is) (exec i s) := by
  cases i with
  | sm4KeyexpEnc => simp only [exec, execSm4KeyexpEnc, mapNext_withRead]; rfl
  | sm4KeyexpDec => simp only [exec, execSm4KeyexpDec, mapNext_withRead]; rfl
  | sm4Crypt => simp only [exec, execSm4Crypt, mapNext_ite, mapNext_withRead]; rfl
  | sm4Crypt4 => simp only [exec, execSm4Crypt4, mapNext_ite, mapNext_withRead]; rfl
  | sm3Hash => simp only [exec, execSm3Hash, mapNext_withRead]; rfl
  | sm3HashAuto => simp only [exec, execSm3HashAuto, mapNext_withRead]; rfl

/-- R73, R75: so does a CMD write of any word. -/
theorem issue_setInputs (c : Word) (s : State) (is : List Input) :
    issue c (s.setInputs is) = mapNext (·.setInputs is) (issue c s) := by
  unfold issue
  split
  · exact exec_setInputs _ s is
  · rfl

/-- A register write and a change of the accesses still to come may be done in either order. -/
theorem State.writeReg_setInputs (s : State) (is : List Input) (r : Reg) (v : Word) :
    (s.setInputs is).writeReg r v = (s.writeReg r v).setInputs is := by
  cases r <;> rfl

/-- R60: an access does the same whatever the accesses after it are, and leaves them. -/
theorem doAccess_setInputs (a : Access) (s : State) (is : List Input) :
    doAccess a (s.setInputs is) = mapNext (·.setInputs is) (doAccess a s) := by
  cases a with
  | read width off =>
    simp only [doAccess, hostRead]
    cases accessReg width off with
    | error e => rfl
    | ok r => simp only [mapNext_withRead, State.readReg_setInputs]; rfl
  | write width off v =>
    simp only [doAccess, hostWrite]
    cases accessReg width off with
    | error e => rfl
    | ok r =>
      by_cases hr : r = .cmd
      · simp only [if_pos hr, issue_setInputs]
      · simp only [if_neg hr, State.writeReg_setInputs, mapNext]
  | readMsg a => simp only [doAccess, hostReadMsg, mapNext_ite, mapNext_withRead]; rfl
  | writeMsg a bs => simp only [doAccess, hostWriteMsg, mapNext_ite]; rfl

/-- R60, R240: so does every input but a line of the host's program, which puts its accesses before those still to
come. -/
theorem takeInput_setInputs {x : Input} (hx : ∀ p, x ≠ .pseudo p) (s : State) (is : List Input) :
    takeInput x (s.setInputs is) = mapNext (·.setInputs is) (takeInput x s) := by
  cases x with
  | access a => exact doAccess_setInputs a s is
  | pseudo p => exact absurd rfl (hx p)
  | reset => rfl

/-- Settles O9. In the last clause the input's next state is `t` when `rest` stands after it, so it is `t` with other
accesses in place when they do; `rest` is one choice of them. -/
theorem accessesTakeEffectInOrder : Obligations.AccessesTakeEffectInOrder := by
  intro s x rest h
  refine ⟨fun a hx => step_access (hx ▸ h), fun p hx => ⟨fun ops hops => ?_, fun r hr => ?_⟩, fun t hx ht => ?_⟩
  · rw [step_takeInput h, hx]
    simp only [takeInput, hops]
    rfl
  · rw [step_takeInput h, hx]
    simp only [takeInput, hr]
  · rw [step_takeInput h] at ht
    have hany : ∀ other, takeInput x (s.setInputs other) = .next (t.setInputs other) := fun other =>
      calc takeInput x (s.setInputs other)
        _ = mapNext (·.setInputs other) (takeInput x (s.setInputs rest)) :=
          takeInput_setInputs hx (s.setInputs rest) other
        _ = .next (t.setInputs other) := by rw [ht, mapNext]
    have hrest : t = t.setInputs rest := Host.Outcome.next.inj (ht.symm.trans (hany rest))
    exact ⟨congrArg State.inputs hrest, fun other => (step_takeInput rfl).trans (hany other)⟩

end Sys2Proof.Machine
end

section
/-! The host's writes to MSGBUF (spec/20_memory.md rules R50, R53): O53. -/

namespace Sys2Proof.Machine

/-- R53: a host write of bytes inside the address space goes on with them stored. -/
theorem doAccess_writeMsg {a : Nat} {bs : List Byte} (h : a + bs.length ≤ 2 ^ 64) (s : State) :
    doAccess (.writeMsg a bs) s = .next (s.writeMsg a bs) := by
  simp only [doAccess, hostWriteMsg, if_pos h]

/-- Log entry 7: a host write that goes past the end of MSGBUF is refused. -/
theorem doAccess_writeMsg_outside {a : Nat} {bs : List Byte} (h : 2 ^ 64 < a + bs.length) (s : State) :
    doAccess (.writeMsg a bs) s = .refused .outsideMsgbuf := by
  simp only [doAccess, hostWriteMsg, if_neg (Nat.not_le.2 h)]

/-- R53: a byte just written reads back. -/
theorem memRead_memWriteBytes_inside (m : List Host.Cell) (a : Nat) {bs : List Byte} {k : Nat} (h : k < bs.length) :
    memRead (memWriteBytes m a bs) (a + k) = some bs[k] := by
  simp [memRead_memWriteBytes, h]

/-- R53: a write of bytes leaves every other address alone. -/
theorem memRead_memWriteBytes_outside (m : List Host.Cell) {a x : Nat} {bs : List Byte}
    (h : x < a ∨ a + bs.length ≤ x) : memRead (memWriteBytes m a bs) x = memRead m x := by
  rw [memRead_memWriteBytes, dif_neg (by omega)]

/-- Settles O53, by the laws of a MSGBUF read after a write and of the canonical form. -/
theorem msgbufWriteThenRead : Obligations.MsgbufWriteThenRead := by
  intro s a bs rest h
  rw [step_access h]
  exact ⟨fun hle => ⟨memWriteBytes s.msgbuf a bs, doAccess_writeMsg hle _,
      fun _ hk => memRead_memWriteBytes_inside s.msgbuf a hk,
      fun _ hx => memRead_memWriteBytes_outside s.msgbuf hx, fun hm => memWf_memWriteBytes bs hm hle⟩,
    fun hlt => doAccess_writeMsg_outside hlt _⟩

end Sys2Proof.Machine
end

section
/-! The lanes of a command under any schedule (spec/20_memory.md rule R61, spec/42_sm4_block_transform.md rule R145):
what the lanes compute does not depend on the schedule, and some schedule lets them all finish: O23. -/

namespace Sys2Proof.Machine

/-- R61: the schedule changes nothing of what each lane computes. -/
theorem map_laneResult_runLanes {σ β : Type} (f : σ → β → σ) (ls : List (Lane σ β)) (sched : List Nat) :
    (runLanes f ls sched).map (laneResult f) = ls.map (laneResult f) := by
  induction sched generalizing ls with
  | nil => rfl
  | cons p sched ih =>
    rw [runLanes, ih]
    refine List.ext_getElem? fun j => ?_
    rw [List.getElem?_map, List.getElem?_map, List.getElem?_modify]
    cases ls[j]? with
    | none => rfl
    | some l => by_cases hp : p = j <;> simp [hp, laneResult_laneStep]

/-- At the join every lane holds what it computes. -/
theorem map_state_of_joined {σ β : Type} (f : σ → β → σ) {ls : List (Lane σ β)} (h : joined ls = true) :
    ls.map Lane.state = ls.map (laneResult f) :=
  List.map_congr_left fun l hl => (laneResult_of_done f (List.all_eq_true.1 h l hl)).symm

/-- R61: at the join every lane holds what it computes run on its own, whatever the schedule was. -/
theorem map_state_runLanes {σ β : Type} (f : σ → β → σ) (ls : List (Lane σ β)) {sched : List Nat}
    (h : joined (runLanes f ls sched) = true) : (runLanes f ls sched).map Lane.state = ls.map (laneResult f) :=
  (map_state_of_joined f h).trans (map_laneResult_runLanes f ls sched)

/-- One schedule after another. -/
theorem runLanes_append {σ β : Type} (f : σ → β → σ) (ls : List (Lane σ β)) (sched sched' : List Nat) :
    runLanes f ls (sched ++ sched') = runLanes f (runLanes f ls sched) sched' := by
  induction sched generalizing ls with
  | nil => rfl
  | cons p sched ih => exact ih _

/-- A schedule that leaves the first lane out runs the others. -/
theorem runLanes_cons_succ {σ β : Type} (f : σ → β → σ) (l : Lane σ β) (ls : List (Lane σ β)) (sched : List Nat) :
    runLanes f (l :: ls) (sched.map (· + 1)) = l :: runLanes f ls sched := by
  induction sched generalizing ls with
  | nil => rfl
  | cons p sched ih => exact ih _

/-- The first lane finishes when it moves once for each of its inputs. -/
theorem runLanes_cons_zero {σ β : Type} (f : σ → β → σ) (x : σ) (todo : List β) (ls : List (Lane σ β)) :
    runLanes f (⟨x, todo⟩ :: ls) (List.replicate todo.length 0) = ⟨todo.foldl f x, []⟩ :: ls := by
  induction todo generalizing x with
  | nil => rfl
  | cons b todo ih => exact ih (f x b)

/-- R61: some schedule lets every lane finish: the lanes one after another. -/
theorem exists_joined_runLanes {σ β : Type} (f : σ → β → σ) (ls : List (Lane σ β)) :
    ∃ sched, joined (runLanes f ls sched) = true := by
  induction ls with
  | nil => exact ⟨[], rfl⟩
  | cons l ls ih =>
    obtain ⟨x, todo⟩ := l
    obtain ⟨sched, hsched⟩ := ih
    refine ⟨List.replicate todo.length 0 ++ sched.map (· + 1), ?_⟩
    rw [runLanes_append, runLanes_cons_zero, runLanes_cons_succ]
    exact hsched

/-- Settles O23: at the join each lane holds the final window of its block, which reversed is the block's transform. -/
theorem cryptLanesAnySchedule : Obligations.CryptLanesAnySchedule := by
  intro bin rks
  refine ⟨fun sched h => ?_, exists_joined_runLanes _ _⟩
  calc (runLanes (feistelRound mixT) (cryptLanes bin rks) sched).map (fun l => l.state.reverse)
    _ = ((runLanes (feistelRound mixT) (cryptLanes bin rks) sched).map Lane.state).map Quad.reverse :=
      by rw [List.map_map]; rfl
    _ = ((cryptLanes bin rks).map (laneResult (feistelRound mixT))).map Quad.reverse := by rw [map_state_runLanes _ _ h]
    _ = bin.toList.map fun p => (rks.toList.foldl (feistelRound mixT) p).reverse := by
      simp only [cryptLanes, List.map_map]
      rfl
    _ = bin.toList.map fun p => sm4Words p rks := by simp only [sm4Words_eq]

end Sys2Proof.Machine
end

section
/-! The digest as bytes and as text (spec/20_memory.md rule R58, spec/43_sm3_hash.md rule R175): O39. -/

namespace Sys2Proof.Machine

/-- In pieces of one length laid end to end, the i-th entry of piece k stands at `n * k + i`. -/
theorem getElem?_flatMap_of_length {α β : Type} {f : α → List β} {n : Nat} (hf : ∀ a, (f a).length = n) (l : List α)
    (k : Nat) {i : Nat} (hi : i < n) : (l.flatMap f)[n * k + i]? = l[k]?.bind fun a => (f a)[i]? := by
  induction l generalizing k with
  | nil => simp
  | cons a l ih =>
    rw [List.flatMap_cons]
    cases k with
    | zero => rw [Nat.mul_zero, Nat.zero_add, List.getElem?_append_left (by rwa [hf])]; rfl
    | succ k =>
      have hk : n * (k + 1) + i = (f a).length + (n * k + i) := by rw [hf, Nat.mul_succ]; omega
      rw [hk, List.getElem?_append_right (Nat.le_add_right _ _), Nat.add_sub_cancel_left, ih]
      rfl

/-- The elements of an eight-tuple by index. -/
theorem Oct.toList_getElem? {α : Type} (o : Oct α) (k : Fin 8) : o.toList[k.val]? = some (o.get k) := by
  fin_cases k <;> rfl

/-- R3: the bytes of a word are its lanes. -/
theorem unbe32_getElem? (w : Word) (m : Fin 4) : (unbe32 w)[m.val]? = some (lane w m) := by
  fin_cases m <;> rfl

/-- The lower-case hexadecimal digits by value (R175). -/
def hexDigits : List Char := ['0', '1', '2', '3', '4', '5', '6', '7', '8', '9', 'a', 'b', 'c', 'd', 'e', 'f']

/-- Below 16 the library's digit is the lower-case hexadecimal one. -/
theorem hexDigits_getElem? : ∀ d < 16, hexDigits[d]? = some (Nat.digitChar d) := by decide

@[simp] theorem h8_length (w : Word) : (h8 w).length = 8 := rfl

/-- R175: the i-th digit of a word is that of its bits 31 - 4 i to 28 - 4 i. -/
theorem h8_getElem? (w : Word) (i : Fin 8) : (h8 w)[i.val]? = hexDigits[w.toNat / 16 ^ (7 - i.val) % 16]? := by
  rw [hexDigits_getElem? _ (Nat.mod_lt _ (by decide)), h8, List.getElem?_map, List.getElem?_range i.isLt]
  rfl

/-- R58: the bytes of a digest by position. -/
theorem digestBytes_getElem? (v : Oct Word) (k : Fin 8) (m : Fin 4) :
    (digestBytes v)[4 * k.val + m.val]? = some (lane (v.get k) m) := by
  rw [digestBytes, getElem?_flatMap_of_length unbe32_length _ _ m.isLt, Oct.toList_getElem?]
  exact unbe32_getElem? _ m

/-- R175: the digits of a digest by position. -/
theorem digestText_getElem? (v : Oct Word) (k i : Fin 8) :
    (digestText v)[8 * k.val + i.val]? = hexDigits[(v.get k).toNat / 16 ^ (7 - i.val) % 16]? := by
  rw [digestText, getElem?_flatMap_of_length h8_length _ _ i.isLt, Oct.toList_getElem?]
  exact h8_getElem? _ i

/-- The n low digits in a base determine a number up to the n-th power of the base. -/
theorem mod_pow_eq_of_digits {b x y : Nat} (n : Nat) (h : ∀ i < n, x / b ^ i % b = y / b ^ i % b) :
    x % b ^ n = y % b ^ n := by
  induction n with
  | zero => rw [Nat.pow_zero, Nat.mod_one, Nat.mod_one]
  | succ n ih =>
    rw [Nat.mod_pow_succ, Nat.mod_pow_succ, ih fun i hi => h i (Nat.lt_succ_of_lt hi), h n (Nat.lt_succ_self n)]

/-- A word is determined by its eight hexadecimal digits, most significant first. -/
theorem word_ext_hex {x y : Word} (h : ∀ i : Fin 8, x.toNat / 16 ^ (7 - i.val) % 16 = y.toNat / 16 ^ (7 - i.val) % 16) :
    x = y := by
  have hmod : x.toNat % 16 ^ 8 = y.toNat % 16 ^ 8 := mod_pow_eq_of_digits 8 fun i hi => by
    have hdigit := h ⟨7 - i, by omega⟩
    rwa [Nat.sub_sub_self (show i ≤ 7 by omega)] at hdigit
  apply BitVec.eq_of_toNat_eq
  rwa [show 16 ^ 8 = 2 ^ 32 from rfl, Nat.mod_eq_of_lt x.isLt, Nat.mod_eq_of_lt y.isLt] at hmod

/-- R175: the text determines the digest. -/
theorem digestText_injective {v u : Oct Word} (h : digestText v = digestText u) : v = u := by
  refine Oct.ext_get fun k => word_ext_hex fun i => ?_
  have hi : hexDigits[(v.get k).toNat / 16 ^ (7 - i.val) % 16]? = hexDigits[(u.get k).toNat / 16 ^ (7 - i.val) % 16]? := by
    rw [← digestText_getElem?, h, digestText_getElem?]
  exact (List.getElem?_inj (Nat.mod_lt _ (by decide)) (by decide)).1 hi

/-- Settles O39: both renderings by position, and the digits determine each word. -/
theorem digestRendering : Obligations.DigestRendering :=
  ⟨fun v => ⟨rfl, digestBytes_getElem? v⟩, fun v => ⟨rfl, digestText_getElem? v⟩, fun _ _ => digestText_injective⟩

end Sys2Proof.Machine
end

section
/-! The command words (spec/30_encoding.md rules R70-R74): the fields of a word, the six commands' words and the words
that are no command's: O1, O2, O3, O4, O5. -/

namespace Sys2Proof.Machine

@[simp] theorem opField_cmd32 (rsv : BitVec 23) (f : BitVec 1) (op : BitVec 8) : opField (cmd32 rsv f op) = op :=
  BitVec.extractLsb'_append_eq_right

@[simp] theorem fField_cmd32 (rsv : BitVec 23) (f : BitVec 1) (op : BitVec 8) : fField (cmd32 rsv f op) = f :=
  (BitVec.extractLsb'_append_eq_of_le (by decide)).trans BitVec.extractLsb'_append_eq_right

@[simp] theorem rsvField_cmd32 (rsv : BitVec 23) (f : BitVec 1) (op : BitVec 8) : rsvField (cmd32 rsv f op) = rsv :=
  (BitVec.extractLsb'_append_eq_of_le (by decide)).trans BitVec.extractLsb'_append_eq_left

/-- R70: a command word as arithmetic on its fields. -/
theorem cmd32_toNat (rsv : BitVec 23) (f : BitVec 1) (op : BitVec 8) :
    (cmd32 rsv f op).toNat = rsv.toNat * 2 ^ 9 + f.toNat * 2 ^ 8 + op.toNat := by
  have hhigh : (rsv ++ f).toNat = rsv.toNat * 2 + f.toNat := by
    rw [BitVec.toNat_append, ← Nat.shiftLeft_add_eq_or_of_lt f.isLt, Nat.shiftLeft_eq]
  rw [cmd32, toNat_append_byte, hhigh]
  omega

/-- R70: a command word is determined by its fields. -/
theorem cmd32_inj {rsv rsv' : BitVec 23} {f f' : BitVec 1} {op op' : BitVec 8} :
    cmd32 rsv f op = cmd32 rsv' f' op' ↔ rsv = rsv' ∧ f = f' ∧ op = op' := by
  refine ⟨fun h => ⟨?_, ?_, ?_⟩, fun ⟨hrsv, hf, hop⟩ => by rw [hrsv, hf, hop]⟩
  · simpa only [rsvField_cmd32] using congrArg rsvField h
  · simpa only [fField_cmd32] using congrArg fField h
  · simpa only [opField_cmd32] using congrArg opField h

/-- R70-R72: every command's word decodes to the command. -/
theorem decode_encode (i : Instr) : decode (encode i) = .ok i := by
  obtain ⟨-, -, hdecode⟩ : Laws.RoundTrip.Statement i := by
    cases i with
    | sm4KeyexpEnc => exact Laws.RoundTrip.sm4KeyexpEnc
    | sm4KeyexpDec => exact Laws.RoundTrip.sm4KeyexpDec
    | sm4Crypt => exact Laws.RoundTrip.sm4Crypt
    | sm4Crypt4 => exact Laws.RoundTrip.sm4Crypt4
    | sm3Hash => exact Laws.RoundTrip.sm3Hash
    | sm3HashAuto => exact Laws.RoundTrip.sm3HashAuto
  exact hdecode

/-- R71: a word decodes to a command exactly when it is the command's word. -/
theorem decode_eq_ok {c : Word} {i : Instr} : decode c = .ok i ↔ c = encode i :=
  ⟨eq_encode_of_decode, fun h => h ▸ decode_encode i⟩

/-- R71: no two commands have the same word. -/
theorem encode_injective : Function.Injective encode := fun i _ h =>
  Except.ok.inj ((decode_encode i).symm.trans (decode_eq_ok.2 h))

/-- Settles O1: decoding undoes encoding, and only a row's own word hits it. -/
theorem decodeOfEncode : Obligations.DecodeOfEncode :=
  fun i _ => ⟨decode_encode i, fun _ => eq_encode_of_decode⟩

/-- R70-R72: the decoder by the fields of the word. -/
theorem decode_cmd32_eq_ok {rsv : BitVec 23} {f : BitVec 1} {op : BitVec 8} {i : Instr} :
    decode (cmd32 rsv f op) = .ok i ↔ rsv = 0 ∧ f = i.fbit ∧ op = i.op := by
  rw [decode_eq_ok, encode, cmd32_inj]

/-- R74: without the capability `sm4.crypt4` ends with ILLEGAL. -/
theorem exec_sm4Crypt4_of_no_x4 {s : State} (h : s.params.hasX4 = false) : exec .sm4Crypt4 s = failWith .illegal s := by
  simp only [exec, execSm4Crypt4, h, Bool.false_eq_true, if_false]

/-- R22, R71: issuing a command's word runs the command. -/
theorem issue_encode (i : Instr) (s : State) : issue (encode i) s = exec i s := issue_of_decode (decode_encode i) s

/-- Settles O2: the fields by position, the decoder's rows by field and by word, and the capability check of
`sm4.crypt4`. -/
theorem decodeByFields : Obligations.DecodeByFields := by
  refine ⟨fun rsv f op => ⟨rsvField_cmd32 .., fField_cmd32 .., opField_cmd32 .., cmd32_toNat ..⟩,
    fun rsv f op i => ?_, fun c i => ?_,
    fun s hx4 => (issue_encode .sm4Crypt4 s).trans (exec_sm4Crypt4_of_no_x4 hx4)⟩
  · rw [decode_cmd32_eq_ok]
    cases i <;> simp [Instr.op, Instr.fbit, and_comm]
  · rw [decode_eq_ok]
    cases i <;> simp [encode, cmd32, Instr.op, Instr.fbit]

/-- R73: the classes of words that hold no command's word. -/
def IllegalClass (c : Word) : Prop :=
  opField c = 0x00 ∨ (0x04 ≤ (opField c).toNat ∧ (opField c).toNat ≤ 0x0F) ∨ 0x11 ≤ (opField c).toNat
    ∨ rsvField c ≠ 0 ∨ (fField c = 1 ∧ (opField c = 0x02 ∨ opField c = 0x03))

/-- R73: a command's word has RSV 0, an opcode of the map, and F only with an opcode that uses it. -/
theorem not_illegalClass_encode (i : Instr) : ¬ IllegalClass (encode i) := by
  simp only [IllegalClass, encode, opField_cmd32, fField_cmd32, rsvField_cmd32]
  cases i <;> decide

/-- R73: a word of one of the classes is no command's. -/
theorem IllegalClass.ne_encode {c : Word} (h : IllegalClass c) (i : Instr) : c ≠ encode i := fun hc =>
  not_illegalClass_encode i (hc ▸ h)

/-- R73: a word that is no command's has no decoding. -/
theorem decode_of_ne_encode {c : Word} (h : ∀ i, c ≠ encode i) : ∃ e, decode c = .error e := by
  cases hc : decode c with
  | ok i => exact absurd (eq_encode_of_decode hc) (h i)
  | error e => exact ⟨e, rfl⟩

/-- R73: issuing a word that is no command's ends with ILLEGAL. -/
theorem issue_of_ne_encode {c : Word} (h : ∀ i, c ≠ encode i) (s : State) : issue c s = failWith .illegal s := by
  obtain ⟨e, he⟩ := decode_of_ne_encode h
  simp only [issue, he]

/-- Settles O3: the classes against each command's fields, and a word with no decoding ends with ILLEGAL. -/
theorem illegalWordsOnlySetErr : Obligations.IllegalWordsOnlySetErr :=
  ⟨fun _ => IllegalClass.ne_encode, fun _ s h => issue_of_ne_encode h s⟩

/-- Settles O4, by the two values of X4. -/
theorem crypt4NeedsCapability : Obligations.Crypt4NeedsCapability := by
  intro s
  have hissue : issue 0x00000003 s = exec .sm4Crypt4 s := issue_encode .sm4Crypt4 s
  refine ⟨fun hx4 => ⟨hissue.trans (exec_sm4Crypt4_of_no_x4 hx4), ?_⟩,
    fun hx4 => ⟨decode_encode .sm4Crypt4, hissue, ?_⟩⟩
  · rw [State.readReg_cap, hx4]
    rfl
  · rw [State.readReg_cap, hx4]
    rfl

/-- R72, R76: a command's word, as a table word of 32 bits, decodes to the command. -/
theorem decodeTableWord_encode (i : Instr) : decodeTableWord 32 (encode i).toNat = some i := by
  rw [decodeTableWord, tableWord_toNat, decode_encode]
  rfl

/-- R73, R76: a word that is no command's, as a table word of 32 bits, decodes to none. -/
theorem decodeTableWord_of_illegalClass {c : Word} (h : IllegalClass c) : decodeTableWord 32 c.toNat = none := by
  obtain ⟨e, he⟩ := decode_of_ne_encode h.ne_encode
  rw [decodeTableWord, tableWord_toNat, he]
  rfl

/-- Settles O5: six of the words are the commands', and each of the four others is in a class of R73. -/
theorem tableWordsDecode : Obligations.TableWordsDecode :=
  have hzero : IllegalClass 0x00000000 := .inl rfl
  have hfunction : IllegalClass 0x00000102 := .inr (.inr (.inr (.inr ⟨rfl, .inl rfl⟩)))
  have hreserved : IllegalClass 0x00000201 := .inr (.inr (.inr (.inl (by decide))))
  have hreserved' : IllegalClass 0x80000010 := .inr (.inr (.inr (.inl (by decide))))
  ⟨decodeTableWord_encode .sm4KeyexpEnc, decodeTableWord_encode .sm4KeyexpDec, decodeTableWord_encode .sm4Crypt,
    decodeTableWord_encode .sm4Crypt4, decodeTableWord_encode .sm3Hash, decodeTableWord_encode .sm3HashAuto,
    decodeTableWord_of_illegalClass hzero, decodeTableWord_of_illegalClass hfunction,
    decodeTableWord_of_illegalClass hreserved, decodeTableWord_of_illegalClass hreserved'⟩

end Sys2Proof.Machine
end

section
/-! What a command leaves unchanged and what it depends on (spec/30_encoding.md rules R75, R80): O46, O47, O48. -/

namespace Sys2Proof.Machine

/-- Settles O46: neither a command nor an illegal word is refused. -/
theorem commandsNeverRefused : Obligations.CommandsNeverRefused := issue_not_refused

/-- R75: no CMD write changes KEY, BIN, MSG_LEN, the parameters, MSGBUF or the host's lists. -/
theorem IssueEffect.frame {s t : State} {c : Word} (h : IssueEffect s c t) :
    t.key = s.key ∧ t.bin = s.bin ∧ t.msgLenLo = s.msgLenLo ∧ t.msgLenHi = s.msgLenHi ∧ t.params = s.params
      ∧ t.inputs = s.inputs ∧ t.reads = s.reads ∧ ∀ a : Nat, memRead t.msgbuf a = memRead s.msgbuf a := by
  cases h <;> exact ⟨rfl, rfl, rfl, rfl, rfl, rfl, rfl, fun _ => rfl⟩

/-- R75: RK, RKV and RKDIR are the results of the two `sm4.keyexp` commands alone. -/
theorem IssueEffect.roundKeys_eq {s t : State} {c : Word} (h : IssueEffect s c t) (henc : c ≠ encode .sm4KeyexpEnc)
    (hdec : c ≠ encode .sm4KeyexpDec) :
    t.rk = s.rk ∧ t.status.rkv = s.status.rkv ∧ t.status.rkdir = s.status.rkdir := by
  cases h with
  | keyexpEnc v => exact absurd rfl henc
  | keyexpDec v => exact absurd rfl hdec
  | _ => exact ⟨rfl, rfl, rfl⟩

/-- R75: BOUT is the result of `sm4.crypt` and `sm4.crypt4` alone. -/
theorem IssueEffect.bout_eq {s t : State} {c : Word} (h : IssueEffect s c t) (hcrypt : c ≠ encode .sm4Crypt)
    (hcrypt4 : c ≠ encode .sm4Crypt4) : t.bout = s.bout := by
  cases h with
  | crypt q hkey => exact absurd rfl hcrypt
  | crypt4 qs hkey => exact absurd rfl hcrypt4
  | _ => rfl

/-- R75: DIGEST and PAR are the results of the two SM3 commands alone. -/
theorem IssueEffect.digest_eq {s t : State} {c : Word} (h : IssueEffect s c t) (hhash : c ≠ encode .sm3Hash)
    (hauto : c ≠ encode .sm3HashAuto) : t.digest = s.digest ∧ t.status.par = s.status.par := by
  cases h with
  | hash v => exact absurd rfl hhash
  | hashAuto v b => exact absurd rfl hauto
  | _ => exact ⟨rfl, rfl⟩

/-- R31, R75: `sm4.crypt` writes lane 0 of BOUT alone. -/
theorem exec_sm4Crypt_bout_get {s t : State} (h : exec .sm4Crypt s = .next t) {l : Fin 4} (hl : l ≠ 0) :
    t.bout.get l = s.bout.get l := by
  obtain ⟨-, rfl⟩ | ⟨-, p, rks, -, -, rfl⟩ := execSm4Crypt_eq_next.1 h
  · rfl
  · exact Quad.get_set_of_ne _ _ hl

/-- Settles O47, from what each CMD write can leave. -/
theorem commandFrame : Obligations.CommandFrame := by
  intro i s t h
  have heffect := exec_effect h
  refine ⟨heffect.frame, fun henc hdec => ?_, fun hcrypt hcrypt4 => ?_, fun hi l hl => ?_, fun hhash hauto => ?_⟩
  · exact heffect.roundKeys_eq (encode_injective.ne henc) (encode_injective.ne hdec)
  · exact heffect.bout_eq (encode_injective.ne hcrypt) (encode_injective.ne hcrypt4)
  · exact exec_sm4Crypt_bout_get (hi ▸ h) hl
  · exact heffect.digest_eq (encode_injective.ne hhash) (encode_injective.ne hauto)

/-- Two outcomes of a command show the host the same: the same fault, or the same error code and, on success, the same
results. -/
def SameOutcome (i : Instr) (o p : Result) : Prop :=
  match o, p with
  | .next t, .next v => t.status.err = v.status.err ∧ (t.status.err = .none → sameResults i t v)
  | .fault f, .fault g => f = g
  | _, _ => False

/-- Reading the same operand, commands that go on alike have the same outcome. -/
theorem sameOutcome_withRead {α : Type} {i : Instr} {r r' : Except Fault α} {k k' : α → Result} (hr : r = r')
    (h : ∀ a, SameOutcome i (k a) (k' a)) : SameOutcome i (withRead r k) (withRead r' k') := by
  subst hr
  cases r with
  | ok a => exact h a
  | error f => exact rfl

/-- Two successful commands have the same outcome when their results agree. -/
theorem sameOutcome_succeed {i : Instr} {s u : State} (h : sameResults i (s.setErr .none) (u.setErr .none)) :
    SameOutcome i (succeed s) (succeed u) :=
  ⟨rfl, fun _ => h⟩

/-- Two commands that end with one error code have the same outcome (R211). -/
theorem sameOutcome_failWith {i : Instr} {e : ErrCode} (he : e ≠ .none) (s u : State) :
    SameOutcome i (failWith e s) (failWith e u) :=
  ⟨rfl, fun h => absurd h he⟩

/-- R53: reading a range depends on the bytes of the range alone. -/
theorem msgBytes_congr {m m' : List Host.Cell} {a n : Nat} (h : ∀ x, a ≤ x → x < a + n → memRead m x = memRead m' x) :
    msgBytes m a n = msgBytes m' a n := by
  induction n generalizing a with
  | zero => rfl
  | succ n ih =>
    have hhead : msgByte m a = msgByte m' a := by rw [msgByte, msgByte, h a (by omega) (by omega)]
    have htail : msgBytes m (a + 1) n = msgBytes m' (a + 1) n := ih fun x hx hx' => h x (by omega) (by omega)
    rw [msgBytes, msgBytes, hhead, htail]

/-- R32, R53: the message read depends on MSG_LEN and on the bytes below it alone. -/
theorem State.readMessage_congr {s u : State} (hlo : s.msgLenLo = u.msgLenLo) (hhi : s.msgLenHi = u.msgLenHi)
    (hmem : ∀ a < s.msgLen, memRead s.msgbuf a = memRead u.msgbuf a) : s.readMessage = u.readMessage := by
  have hlen : s.readMsgLen = u.readMsgLen := by rw [State.readMsgLen, State.readMsgLen, hlo, hhi]
  rw [State.readMessage, State.readMessage, ← hlen]
  cases hn : s.readMsgLen with
  | error f => rfl
  | ok n =>
    obtain ⟨-, -, rfl⟩ := State.readMsgLen_eq_ok.1 hn
    exact msgBytes_congr fun x _ hx => hmem x (by rwa [Nat.zero_add] at hx)

/-- R143, R214: `sm4.crypt` depends on RKV, RK and BIN[0]. -/
theorem sameOutcome_sm4Crypt {s u : State} (hrkv : s.status.rkv = u.status.rkv) (hrk : s.rk = u.rk)
    (hbin : s.bin.get 0 = u.bin.get 0) : SameOutcome .sm4Crypt (execSm4Crypt s) (execSm4Crypt u) := by
  have hreadBin : s.readBin 0 = u.readBin 0 := by rw [State.readBin, State.readBin, hbin]
  have hreadRk : s.readRk = u.readRk := by rw [State.readRk, State.readRk, hrk]
  rw [execSm4Crypt, execSm4Crypt, ← hrkv]
  split
  · exact sameOutcome_withRead hreadBin fun p => sameOutcome_withRead hreadRk fun rks => sameOutcome_succeed rfl
  · exact sameOutcome_failWith (by decide) s u

/-- R144, R214: `sm4.crypt4` depends on X4, RKV, RK and BIN. -/
theorem sameOutcome_sm4Crypt4 {s u : State} (hx4 : s.params.hasX4 = u.params.hasX4)
    (hrkv : s.status.rkv = u.status.rkv) (hrk : s.rk = u.rk) (hbin : s.bin = u.bin) :
    SameOutcome .sm4Crypt4 (execSm4Crypt4 s) (execSm4Crypt4 u) := by
  have hreadBin : s.readBinAll = u.readBinAll := by simp only [State.readBinAll, State.readBin, hbin]
  have hreadRk : s.readRk = u.readRk := by rw [State.readRk, State.readRk, hrk]
  rw [execSm4Crypt4, execSm4Crypt4, ← hx4, ← hrkv]
  split
  · split
    · exact sameOutcome_withRead hreadBin fun ps => sameOutcome_withRead hreadRk fun rks => sameOutcome_succeed rfl
    · exact sameOutcome_failWith (by decide) s u
  · exact sameOutcome_failWith (by decide) s u

/-- R190: path selection depends on P_THRESHOLD and the message. -/
theorem chunked_congr {p q : Params} (hthreshold : p.threshold = q.threshold) (m : List Byte) :
    chunked p m = chunked q m := by
  rw [chunked, chunked, hthreshold]

/-- R190, R192: the digest of `sm3.hash.auto` depends on P_THRESHOLD, P_N_LANES and the message. -/
theorem hauto_congr {p q : Params} (hthreshold : p.threshold = q.threshold) (hlanes : p.extraLanes = q.extraLanes)
    (m : List Byte) : hauto p m = hauto q m := by
  rw [hauto, hauto, chunked_congr hthreshold, Params.nLanes, Params.nLanes, hlanes]

/-- Settles O48: the operands are read alike, and what is done with them depends on nothing else. -/
theorem commandReadsOnlyOperands : Obligations.CommandReadsOnlyOperands := by
  intro i s u h
  change SameOutcome i (exec i s) (exec i u)
  cases i with
  | sm4KeyexpEnc | sm4KeyexpDec =>
    have hkey : s.readKey = u.readKey := congrArg readQuad h
    exact sameOutcome_withRead hkey fun mk => sameOutcome_succeed ⟨rfl, rfl, rfl⟩
  | sm4Crypt =>
    obtain ⟨hrkv, hrk, hbin⟩ := h
    exact sameOutcome_sm4Crypt hrkv hrk hbin
  | sm4Crypt4 =>
    obtain ⟨hx4, hrkv, hrk, hbin⟩ := h
    exact sameOutcome_sm4Crypt4 hx4 hrkv hrk hbin
  | sm3Hash =>
    obtain ⟨hlo, hhi, hmem⟩ := h
    exact sameOutcome_withRead (State.readMessage_congr hlo hhi hmem) fun m => sameOutcome_succeed ⟨rfl, rfl⟩
  | sm3HashAuto =>
    obtain ⟨hthreshold, hlanes, hlo, hhi, hmem⟩ := h
    exact sameOutcome_withRead (State.readMessage_congr hlo hhi hmem) fun m => sameOutcome_succeed
      ⟨congrArg (Oct.map RegWord.of) (hauto_congr hthreshold hlanes m), chunked_congr hthreshold m⟩

end Sys2Proof.Machine
end

section
/-! The calls of the host API (spec/30_encoding.md rules R77, R78): what each expands to, what its accesses do one after
another, and where a run of it ends: O55. -/

namespace Sys2Proof.Machine

/-- The accesses take `s` to `t`, whatever the host's program goes on with after them. -/
def Performs (ops : List Access) (s t : State) : Prop :=
  ∀ rest : List Input, (s.setInputs (ops.map Input.access ++ rest)).runsTo (t.setInputs rest)

theorem performs_nil (s : State) : Performs [] s s := fun rest => State.runsTo_refl (s.setInputs rest)

/-- R60: an access, then those after it. -/
theorem performs_cons {a : Access} {ops : List Access} {s u t : State} (ha : doAccess a s = .next u)
    (hops : Performs ops u t) : Performs (a :: ops) s t := by
  intro rest
  refine State.runsTo_of_step ?_ (hops rest)
  calc step (s.setInputs (.access a :: (ops.map Input.access ++ rest)))
    _ = doAccess a (s.setInputs (ops.map Input.access ++ rest)) := step_access rfl
    _ = mapNext (·.setInputs (ops.map Input.access ++ rest)) (doAccess a s) := doAccess_setInputs a s _
    _ = .next (u.setInputs (ops.map Input.access ++ rest)) := by rw [ha, mapNext]

/-- Accesses, then others. -/
theorem performs_append {ops ops' : List Access} {s u t : State} (h : Performs ops s u) (h' : Performs ops' u t) :
    Performs (ops ++ ops') s t := by
  intro rest
  rw [List.map_append, List.append_assoc]
  exact State.runsTo_trans (h _) (h' rest)

/-- R78: a call is run by performing its accesses. -/
theorem runsTo_of_expand {p : Pseudo} {ops : List Access} {s t : State} (hexpand : Pseudo.expand p = .ok ops)
    (h : Performs ops s t) (rest : List Input) : (s.setInputs (.pseudo p :: rest)).runsTo (t.setInputs rest) := by
  refine State.runsTo_of_step ?_ (h rest)
  rw [step_takeInput rfl]
  simp only [takeInput, hexpand]
  rfl

/-- R21: a write to a register other than CMD. -/
theorem performs_wr {r : Reg} (hr : r ≠ .cmd) (v : Word) (s : State) : Performs [wr r v] s (s.writeReg r v) :=
  performs_cons (doAccess_write_offset hr v s) (performs_nil _)

/-- R22, R77: a mnemonic performs its command. -/
theorem performs_issueOp {i : Instr} {s t : State} (h : exec i s = .next t) : Performs [issueOp i] s t :=
  performs_cons ((issue_encode i s).trans h) (performs_nil t)

/-- Four writes, one after another. -/
theorem performs_wrQuad {r : Fin 4 → Reg} (hr : ∀ i, r i ≠ .cmd) (q : Quad Word) (s : State) :
    Performs (wrQuad r q) s
      ((((s.writeReg (r 0) q.w0).writeReg (r 1) q.w1).writeReg (r 2) q.w2).writeReg (r 3) q.w3) :=
  performs_append (performs_wr (hr 0) _ _) <| performs_append (performs_wr (hr 1) _ _) <|
    performs_append (performs_wr (hr 2) _ _) (performs_wr (hr 3) _ _)

/-- R59: what the host has read is no register. -/
theorem State.readReg_pushRead (s : State) (x : ReadBack) (r : Reg) : (s.pushRead x).readReg r = s.readReg r := by
  cases r <;> rfl

/-- The host has received the values of several reads, in order (R77). -/
def State.pushReads (s : State) (vs : List ReadBack) : State := { s with reads := s.reads ++ vs }

@[simp] theorem State.pushReads_nil (s : State) : s.pushReads [] = s := by rw [pushReads, List.append_nil]

theorem State.pushReads_pushRead (s : State) (v : ReadBack) (vs : List ReadBack) :
    (s.pushRead v).pushReads vs = s.pushReads (v :: vs) := by
  rw [pushReads, pushRead_reads, List.append_assoc]
  rfl

/-- R59, R77: reads of registers give their words to the host in order and change nothing else. -/
theorem performs_rd {α : Type} {s : State} {reg : α → Reg} {val : α → Word}
    (h : ∀ a, s.readReg (reg a) = .ok (val a)) (l : List α) :
    Performs (l.map fun a => rd (reg a)) s (s.pushReads (l.map fun a => .word (val a))) := by
  induction l generalizing s with
  | nil => simpa only [List.map_nil, State.pushReads_nil] using performs_nil s
  | cons a l ih =>
    have hread : doAccess (rd (reg a)) s = .next (s.pushRead (.word (val a))) := by
      simp only [rd, doAccess_read_offset, h a, withRead_ok]
    have hrest := ih fun b => (s.readReg_pushRead (.word (val a)) (reg b)).trans (h b)
    rw [State.pushReads_pushRead] at hrest
    exact performs_cons hread hrest

/-- R213 (b): a 16-byte argument is written as its four words. -/
theorem wr16_of_length {bytes : List Byte} (h : bytes.length = 16) (r : Fin 4 → Reg) :
    wr16 r bytes = .ok (wrQuad r (pack16 bytes)) := if_pos h

/-- R51, R78: the four words of a BIN lane by offset. -/
theorem wrQuad_bin (l : Fin 4) (q : Quad Word) :
    wrQuad (Reg.bin l) q
      = [.write 32 (0x100 + 16 * l.val) q.w0, .write 32 (0x104 + 16 * l.val) q.w1,
          .write 32 (0x108 + 16 * l.val) q.w2, .write 32 (0x10C + 16 * l.val) q.w3] := by
  fin_cases l <;> rfl

/-- R51, R78: the four words of a BOUT lane by offset. -/
theorem getblkOps_eq (l : Fin 4) :
    getblkOps l
      = [.read 32 (0x140 + 16 * l.val), .read 32 (0x144 + 16 * l.val), .read 32 (0x148 + 16 * l.val),
          .read 32 (0x14C + 16 * l.val)] := by
  fin_cases l <;> rfl

/-- R51, R78: the words of RK by offset. -/
theorem getRkOps_eq : getRkOps = (List.range 32).map fun i => .read 32 (0x080 + 4 * i) := by
  rw [← List.map_coe_finRange_eq_range, List.map_map]
  rfl

/-- R78: `setkey` leaves the key's four words in KEY. -/
theorem performs_setkey (q : Quad Word) (s : State) :
    Performs (wrQuad Reg.key q) s { s with key := q.map RegWord.of } :=
  performs_wrQuad (r := Reg.key) (fun _ => nofun) q s

/-- R78: `setblk` leaves the block's four words in its BIN lane. -/
theorem performs_setblk (l : Fin 4) (q : Quad Word) (s : State) :
    Performs (wrQuad (Reg.bin l) q) s { s with bin := s.bin.set l (q.map RegWord.of) } := by
  have hfour := performs_wrQuad (r := Reg.bin l) (fun _ => nofun) q s
  fin_cases l <;> exact hfour

/-- R78: `getblk` gives the host the four words of its BOUT lane. -/
theorem performs_getblk {l : Fin 4} {s : State} (h : ∀ w, ((s.bout.get l).get w).written = true) :
    Performs (getblkOps l) s (s.pushReads ((s.bout.get l).toList.map fun c => .word c.val)) :=
  performs_rd (reg := Reg.bout l) (fun w => RegWord.read_eq_ok.2 ⟨h w, rfl⟩) (List.finRange 4)

/-- R78: `getdigest` gives the host the eight words of DIGEST. -/
theorem performs_getdigest {s : State} (h : ∀ k, (s.digest.get k).written = true) :
    Performs getdigestOps s (s.pushReads (s.digest.toList.map fun c => .word c.val)) :=
  performs_rd (reg := Reg.digest) (fun k => RegWord.read_eq_ok.2 ⟨h k, rfl⟩) (List.finRange 8)

/-- R78: the reads of RK give the host its 32 words. -/
theorem performs_getRk {s : State} {rks : Vector Word 32} (h : s.rk = rks.map RegWord.of) :
    Performs getRkOps s (s.pushReads (rks.toList.map .word)) := by
  have hread (i : Fin 32) : s.readReg (.rk i) = .ok rks[i] := by
    simp only [State.readReg, h, Fin.getElem_fin, Vector.getElem_map, RegWord.read_of]
  have hlist : rks.toList = (List.finRange 32).map fun i => rks[i] := by
    apply List.ext_getElem <;> simp
  rw [hlist, List.map_map]
  exact performs_rd hread (List.finRange 32)

/-- The state after `setmsg` (R78). -/
def State.withMessage (s : State) (m : List Byte) : State :=
  { s with
    msgbuf := memWriteBytes s.msgbuf 0 m
    msgLenLo := RegWord.of (BitVec.ofNat 32 (m.length % 2 ^ 32))
    msgLenHi := RegWord.of (BitVec.ofNat 32 (m.length / 2 ^ 32)) }

/-- R78: `setmsg` leaves the message in MSGBUF and its length in MSG_LEN. -/
theorem performs_setmsg {m : List Byte} (h : m.length < 2 ^ 64) (s : State) :
    Performs (setmsgOps m) s (s.withMessage m) :=
  performs_cons (doAccess_writeMsg (by omega) s) <|
    performs_append (performs_wr (r := .msgLenLo) nofun _ _) (performs_wr (r := .msgLenHi) nofun _ _)

/-- R32, R78: after `setmsg` the state holds the message. -/
theorem State.withMessage_holdsMessage {m : List Byte} (h : m.length < 2 ^ 64) (s : State) :
    (s.withMessage m).HoldsMessage m := by
  refine ⟨rfl, rfl, ?_, fun a ha => ?_⟩
  · simp only [State.msgLen, State.withMessage, RegWord.of_val, BitVec.toNat_ofNat]
    omega
  · simpa only [State.withMessage, Nat.zero_add] using memRead_memWriteBytes_inside s.msgbuf 0 ha

/-- Defined words are read as their values. -/
theorem readQuad_map_of (q : Quad Word) : readQuad (q.map RegWord.of) = .ok q := rfl

/-- R127, R128: a key expansion on a defined key, in the direction asked for. -/
theorem exec_keyexp {s : State} {mk : Quad Word} (hkey : s.readKey = .ok mk) (e : Bool) :
    exec (if e then .sm4KeyexpEnc else .sm4KeyexpDec) s
      = .next (((s.writeRk (if e then roundKeysEnc mk else roundKeysDec mk)).setRoundKeysValid e).setErr .none) := by
  cases e with
  | true => exact execSm4KeyexpEnc_eq_next.2 ⟨mk, hkey, rfl⟩
  | false => exact execSm4KeyexpDec_eq_next.2 ⟨mk, hkey, rfl⟩

/-- R143: `sm4.crypt` with round keys on a defined block. -/
theorem exec_sm4Crypt_of_written {s : State} {p : Quad Word} (hrkv : s.status.rkv = true) (hrk : s.RkWritten)
    (hbin : s.readBin 0 = .ok p) :
    exec .sm4Crypt s = .next ((s.writeBout 0 (sm4Words p (s.rk.map RegWord.val))).setErr .none) :=
  execSm4Crypt_eq_next.2 (.inr ⟨hrkv, p, _, hbin, State.readRk_eq_ok.2 ⟨hrk, rfl⟩, rfl⟩)

/-- R174: `sm3.hash` on a held message. -/
theorem exec_sm3Hash_of_holdsMessage {s : State} {m : List Byte} (h : s.HoldsMessage m) :
    exec .sm3Hash s = .next (((s.writeDigest (hseq m)).setPar false).setErr .none) :=
  execSm3Hash_eq_next.2 ⟨m, State.readMessage_eq_ok_iff_holdsMessage.2 h, rfl⟩

/-- The state after `expand_key` but for what the host has read (R78). -/
def State.withExpandedKey (s : State) (mk : Quad Word) (e : Bool) : State :=
  { s with
    key := mk.map RegWord.of
    rk := (if e then roundKeysEnc mk else roundKeysDec mk).map RegWord.of
    status := { s.status with rkv := true, rkdir := e, err := .none } }

/-- R78: `expand_key` writes the key, expands it and, when they are wanted, reads the round keys. -/
theorem performs_expandKey (mk : Quad Word) (e w : Bool) (s : State) :
    Performs
      (wrQuad Reg.key mk ++ [issueOp (if e then .sm4KeyexpEnc else .sm4KeyexpDec)] ++ if w then getRkOps else []) s
      ((s.withExpandedKey mk e).pushReads <|
        if w then (if e then roundKeysEnc mk else roundKeysDec mk).toList.map .word else []) := by
  have hexpand : Performs (wrQuad Reg.key mk ++ [issueOp (if e then .sm4KeyexpEnc else .sm4KeyexpDec)]) s
      (s.withExpandedKey mk e) := by
    have hkeyexp := exec_keyexp (s := { s with key := mk.map RegWord.of }) (readQuad_map_of mk) e
    exact performs_append (performs_setkey mk s) (performs_issueOp hkeyexp)
  refine performs_append hexpand ?_
  cases w with
  | true => exact performs_getRk rfl
  | false => simpa using performs_nil (s.withExpandedKey mk e)

/-- R78: `transform_block` writes the block, transforms it and reads the result. -/
theorem performs_transformBlock (p : Quad Word) {s : State} (hrkv : s.status.rkv = true) (hrk : s.RkWritten) :
    Performs (wrQuad (Reg.bin 0) p ++ [issueOp .sm4Crypt] ++ getblkOps 0) s
      { s with
        bin := s.bin.set 0 (p.map RegWord.of)
        bout := s.bout.set 0 ((sm4Words p (s.rk.map RegWord.val)).map RegWord.of)
        status := { s.status with err := .none }
        reads := s.reads ++ (sm4Words p (s.rk.map RegWord.val)).toList.map .word } := by
  have hcrypt := exec_sm4Crypt_of_written (s := { s with bin := s.bin.set 0 (p.map RegWord.of) }) hrkv hrk
    (readQuad_map_of p)
  exact performs_append (performs_append (performs_setblk 0 p s) (performs_issueOp hcrypt))
    (performs_getblk fun w => congrArg RegWord.written (Quad.get_map RegWord.of _ w))

/-- R78: `hash_sm3` writes the message, hashes it and reads the digest. -/
theorem performs_hashSm3 {m : List Byte} (h : m.length < 2 ^ 64) (s : State) :
    Performs (setmsgOps m ++ [issueOp .sm3Hash] ++ getdigestOps) s
      { s.withMessage m with
        digest := (hseq m).map RegWord.of
        status := { s.status with par := false, err := .none }
        reads := s.reads ++ (hseq m).toList.map .word } := by
  have hhash := exec_sm3Hash_of_holdsMessage (s.withMessage_holdsMessage h)
  exact performs_append (performs_append (performs_setmsg h s) (performs_issueOp hhash))
    (performs_getdigest fun k => congrArg RegWord.written (Oct.get_map RegWord.of _ k))

theorem expand_setkey {k : List Byte} (h : k.length = 16) :
    Pseudo.expand (.setkey k) = .ok (wrQuad Reg.key (pack16 k)) := wr16_of_length h Reg.key

theorem expand_setblk {p : List Byte} (h : p.length = 16) (l : Fin 4) :
    Pseudo.expand (.setblk l p) = .ok (wrQuad (Reg.bin l) (pack16 p)) := wr16_of_length h (Reg.bin l)

theorem expand_expandKey {k : List Byte} (h : k.length = 16) (e w : Bool) :
    Pseudo.expand (.expandKey k e w)
      = .ok (wrQuad Reg.key (pack16 k) ++ [issueOp (if e then .sm4KeyexpEnc else .sm4KeyexpDec)]
          ++ if w then getRkOps else []) := by
  rw [Pseudo.expand, wr16_of_length h]
  rfl

theorem expand_transformBlock {p : List Byte} (h : p.length = 16) :
    Pseudo.expand (.transformBlock p)
      = .ok (wrQuad (Reg.bin 0) (pack16 p) ++ [issueOp .sm4Crypt] ++ getblkOps 0) := by
  rw [Pseudo.expand, wr16_of_length h]
  rfl

/-- Settles O55: each call's accesses by offset, and a run performs them. -/
theorem hostApiCalls : Obligations.HostApiCalls := by
  refine ⟨?_, fun s rest => ⟨fun k hk => ?_, fun l p hp => ?_, fun l hl => ?_, fun m hm => ⟨?_, ?_⟩, fun hd => ?_,
    fun k e w hk => ?_, fun p hp hrkv hrk => ?_, fun m hm => ?_⟩⟩
  · refine ⟨fun i => rfl, fun c => rfl, fun k hk => ?_, fun l p hp => ?_, fun l => ?_, fun m _ => rfl, rfl,
      fun k e w hk => ?_, fun p hp => ?_, fun m _ => rfl⟩
    · exact expand_setkey hk
    · rw [expand_setblk hp, wrQuad_bin]
      rfl
    · rw [Pseudo.expand, getblkOps_eq]
    · rw [expand_expandKey hk, getRkOps_eq]
      cases e <;> rfl
    · exact expand_transformBlock hp
  · exact runsTo_of_expand (expand_setkey hk) (performs_setkey _ s) rest
  · exact runsTo_of_expand (expand_setblk hp l) (performs_setblk l _ s) rest
  · exact runsTo_of_expand rfl (performs_getblk hl) rest
  · exact runsTo_of_expand rfl (performs_setmsg hm s) rest
  · exact s.withMessage_holdsMessage hm
  · exact runsTo_of_expand rfl (performs_getdigest hd) rest
  · exact runsTo_of_expand (expand_expandKey hk e w) (performs_expandKey _ e w s) rest
  · exact runsTo_of_expand (expand_transformBlock hp) (performs_transformBlock _ hrkv hrk) rest
  · exact runsTo_of_expand rfl (performs_hashSm3 hm s) rest

end Sys2Proof.Machine
end

section
/-! The S-box, τ, the two diffusions and the known answers (spec/40_sbox_linear.md rules R100-R105, R108;
spec/95_test_vectors.md V1, V2, V20, V22): O12, O13, O14. -/

namespace Sys2Proof.Machine

/-- Where a byte stands in the S-box, which undoes the S-box (R100). -/
def sboxIndex (y : Byte) : Byte := BitVec.ofNat 8 (sboxRows.flatten.idxOf y)

/-- R100: every byte is where its entry first stands, so no entry stands twice. -/
theorem sboxIndex_sbox (x : Byte) : sboxIndex (sbox x) = x := by
  revert x
  decide +kernel

/-- R100: the S-box is a permutation. -/
theorem sbox_injective : Function.Injective sbox := Function.LeftInverse.injective sboxIndex_sbox

/-- R2: a word is determined by its four byte lanes. -/
theorem eq_of_lane_eq {x y : Word} (h : ∀ m, lane x m = lane y m) : x = y := by
  rw [← be32_lane x, ← be32_lane y, h 0, h 1, h 2, h 3]

/-- R101: τ applies the S-box to each lane. -/
@[simp] theorem lane_tau (x : Word) (m : Fin 4) : lane (tau x) m = sbox (lane x m) :=
  match m with
  | 0 => lane_be32_zero _ _ _ _
  | 1 => lane_be32_one _ _ _ _
  | 2 => lane_be32_two _ _ _ _
  | 3 => lane_be32_three _ _ _ _

/-- R101: the lanes of the image determine the lanes of the word. -/
theorem tau_injective : Function.Injective tau := by
  intro x y hxy
  refine eq_of_lane_eq fun m => sbox_injective ?_
  rw [← lane_tau, ← lane_tau, hxy]

/-- R4: the two shifts of a rotation have no bit in common, so their or is their exclusive or. -/
theorem rotl_eq_xor {n : Nat} (hn : n ≠ 0) (x : Word) : rotl x n = (x <<< n) ^^^ (x >>> (32 - n)) := by
  rw [rotl, if_neg hn]
  ext i hi
  rw [BitVec.getElem_or, BitVec.getElem_xor, BitVec.getElem_shiftLeft, BitVec.getElem_ushiftRight]
  by_cases hin : i < n
  · simp [hin]
  · rw [BitVec.getLsbD_of_ge x (32 - n + i) (by omega), Bool.or_false, Bool.xor_false]

/-- R4: rotation distributes over exclusive or. -/
theorem rotl_xor (a b : Word) (n : Nat) : rotl (a ^^^ b) n = rotl a n ^^^ rotl b n := by
  by_cases hn : n = 0
  · rw [hn, rotl_zero, rotl_zero, rotl_zero]
  · rw [rotl_eq_xor hn, rotl_eq_xor hn, rotl_eq_xor hn, BitVec.shiftLeft_xor_distrib, BitVec.ushiftRight_xor_distrib]
    ac_rfl

/-- R102, R108: L distributes over exclusive or, since each of its rotations does. -/
theorem linL_xor (a b : Word) : linL (a ^^^ b) = linL a ^^^ linL b := by
  simp only [linL, rotl_xor]
  ac_rfl

/-- R103, R108: L' distributes over exclusive or, for the same reason. -/
theorem linL'_xor (a b : Word) : linL' (a ^^^ b) = linL' a ^^^ linL' b := by
  simp only [linL', rotl_xor]
  ac_rfl

/-- Settles O13: on a finite type τ is onto because it is one to one, and L and L' are built of rotations. -/
theorem mixerProperties : Obligations.MixerProperties :=
  ⟨Finite.injective_iff_bijective.1 tau_injective, linL_xor, linL'_xor⟩

/-- Settles O12: the S-box has a left inverse, and the examples are entries of the table. -/
theorem sboxPermutes : Obligations.SboxPermutes :=
  ⟨fun _ _ h => sbox_injective h, by decide⟩

/-- V20: the standard key's first and last round keys. -/
theorem roundKeysEnc_standardKey :
    (roundKeysEnc ⟨0x01234567, 0x89ABCDEF, 0xFEDCBA98, 0x76543210⟩)[0] = 0xF12186F9
      ∧ (roundKeysEnc ⟨0x01234567, 0x89ABCDEF, 0xFEDCBA98, 0x76543210⟩)[31] = 0x9124A012 := by
  decide +kernel

/-- V22: the standard block under the standard key. -/
theorem sm4Words_standardBlock :
    sm4Words ⟨0x01234567, 0x89ABCDEF, 0xFEDCBA98, 0x76543210⟩
        (roundKeysEnc ⟨0x01234567, 0x89ABCDEF, 0xFEDCBA98, 0x76543210⟩)
      = ⟨0x681EDF34, 0xD206965E, 0x86B3E94F, 0x536E4246⟩ := by
  decide +kernel

/-- V1: the digest of the empty message. -/
theorem hseq_nil :
    hseq [] = ⟨0x1AB21D83, 0x55CFA17F, 0x8E611948, 0x31E81A8F, 0x22BEC8C7, 0x28FEFB74, 0x7ED035EB, 0x5082AA2B⟩ := by
  decide +kernel

/-- V2: the digest of "abc". -/
theorem hseq_abc :
    hseq [0x61, 0x62, 0x63]
      = ⟨0x66C7F0F4, 0x62EEEDD9, 0xD1F2D46B, 0xDC10E4E2, 0x4167C487, 0x5CF2F7A2, 0x297DA02B, 0x8F4BA8E0⟩ := by
  decide +kernel

/-- Settles O14: the mixers' examples by evaluation, then the known answers of V20, V22, V1 and V2. -/
theorem workedExamples : Obligations.WorkedExamples := by
  obtain ⟨hfirst, hlast⟩ := roundKeysEnc_standardKey
  exact ⟨by decide, ⟨hfirst, hlast, sm4Words_standardBlock⟩, hseq_nil, hseq_abc⟩

end Sys2Proof.Machine
end

section
/-! The SM4 key schedule word by word, the two commands that leave it in RK, and what else changes RK
(spec/41_sm4_key_schedule.md rules R122-R130): O15, O16, O17, O18, O49. -/

namespace Sys2Proof.Machine

/-- R34, R123, R141: round i of the buffer, from the four words before its word i + 4. -/
theorem feistelBuf_getElem_add_four (mix : Word → Word) (w : Quad Word) (ks : List Word) {i : Nat} (hi : i < ks.length)
    (hbuf : i + 4 < (feistelBuf mix w ks).length) :
    (feistelBuf mix w ks)[i + 4]
      = (feistelBuf mix w ks)[i] ^^^ mix ((feistelBuf mix w ks)[i + 1] ^^^ (feistelBuf mix w ks)[i + 2]
          ^^^ (feistelBuf mix w ks)[i + 3] ^^^ ks[i]) := by
  obtain ⟨a, b, c, d, ha, hb, hc, hd, he⟩ := feistelBuf_round mix w ks i hi
  rw [(List.getElem_eq_iff _).2 he, (List.getElem_eq_iff _).2 ha, (List.getElem_eq_iff _).2 hb,
    (List.getElem_eq_iff _).2 hc, (List.getElem_eq_iff _).2 hd]

/-- The words of the schedule are those of its buffer (R34). -/
theorem keySchedule_getElem (mk : Quad Word) {i : Nat} (hi : i < 36) :
    (keySchedule mk)[i]
      = (feistelBuf mixT' (mk.xor fk) ckList)[i]'(by rwa [feistelBuf_length, ckList_length]) := rfl

/-- R122: the first four words are the key words XOR FK. -/
theorem keySchedule_seed (mk : Quad Word) (i : Fin 4) : (keySchedule mk)[i.val] = (mk.xor fk).get i := by
  rw [keySchedule_getElem]
  exact (List.getElem_eq_iff _).2 (feistelBuf_seed mixT' (mk.xor fk) ckList i)

/-- R107: the i-th round constant. -/
theorem ckList_getElem {i : Nat} (hi : i < ckList.length) : ckList[i] = ck i := by
  simp [ckList]

/-- R123: the schedule round. -/
theorem keySchedule_add_four (mk : Quad Word) {i : Nat} (hi : i < 32) :
    (keySchedule mk)[i + 4]
      = (keySchedule mk)[i] ^^^ mixT' ((keySchedule mk)[i + 1] ^^^ (keySchedule mk)[i + 2]
          ^^^ (keySchedule mk)[i + 3] ^^^ ck i) := by
  have hck : i < ckList.length := ckList_length ▸ hi
  rw [← ckList_getElem hck]
  exact feistelBuf_getElem_add_four mixT' (mk.xor fk) ckList hck
    (by rw [feistelBuf_length]; exact Nat.add_lt_add_right hck 4)

/-- R126: the round keys in encryption order. -/
theorem roundKeysEnc_getElem (mk : Quad Word) {i : Nat} (hi : i < 32) :
    (roundKeysEnc mk)[i] = (keySchedule mk)[i + 4] := Vector.getElem_ofFn hi

/-- R126, R128: the round keys in decryption order. -/
theorem roundKeysDec_getElem (mk : Quad Word) {i : Nat} (hi : i < 32) :
    (roundKeysDec mk)[i] = (keySchedule mk)[(31 - i) + 4] := Vector.getElem_ofFn hi

/-- Settles O15: the seeds, then each round and its place in the two orders. -/
theorem keyScheduleRecurrence : Obligations.KeyScheduleRecurrence := fun mk =>
  ⟨⟨keySchedule_seed mk 0, keySchedule_seed mk 1, keySchedule_seed mk 2, keySchedule_seed mk 3⟩,
    fun _ h => ⟨keySchedule_add_four mk h, roundKeysEnc_getElem mk h, roundKeysDec_getElem mk h⟩⟩

/-- R127, R128, R212: a key expansion, in either direction, is the model fault on a ⊥ word of KEY. -/
theorem exec_keyexp_fault {s : State} (h : ∃ i, (s.key.get i).written = false) (e : Bool) :
    exec (if e then .sm4KeyexpEnc else .sm4KeyexpDec) s = .fault .unwrittenRead := by
  have hread : s.readKey = .error .unwrittenRead := readQuad_eq_error.2 ⟨h, rfl⟩
  cases e with
  | true => exact withRead_eq_fault.2 (.inl hread)
  | false => exact withRead_eq_fault.2 (.inl hread)

/-- R127, R128: a key expansion, in either direction, completes once the four words of KEY are defined. -/
theorem exec_keyexp_of_keyWritten {s : State} (h : s.KeyWritten) (e : Bool) :
    exec (if e then .sm4KeyexpEnc else .sm4KeyexpDec) s
      = .next { s with
          rk := (if e then roundKeysEnc else roundKeysDec) (s.key.map RegWord.val) |>.map RegWord.of
          status := { s.status with rkv := true, rkdir := e, err := .none } } := by
  rw [exec_keyexp (State.readKey_eq_ok.2 ⟨h, rfl⟩) e]
  cases e <;> rfl

/-- Settles O16: the encryption direction of a key expansion. -/
theorem keyexpEncOutcome : Obligations.KeyexpEncOutcome := by
  refine ⟨by decide, fun s => ⟨fun h => ?_, fun h => exec_keyexp_fault h true⟩⟩
  refine (exec_keyexp_of_keyWritten h true).trans ?_
  rw [if_pos rfl, roundKeysEnc, Vector.map_ofFn]
  rfl

/-- Settles O17: the decryption direction of a key expansion. -/
theorem keyexpDecOutcome : Obligations.KeyexpDecOutcome := by
  refine ⟨by decide, fun s => ⟨fun h => ?_, fun h => exec_keyexp_fault h false⟩⟩
  refine (exec_keyexp_of_keyWritten h false).trans ?_
  rw [if_neg Bool.false_ne_true, roundKeysDec, Vector.map_ofFn]
  rfl

/-- R126, R129: each order of the round keys is the other read backwards. -/
theorem roundKeysDec_getElem_eq (mk : Quad Word) {i : Nat} (hi : i < 32) :
    (roundKeysDec mk)[i] = (roundKeysEnc mk)[31 - i] := by
  rw [roundKeysDec_getElem, roundKeysEnc_getElem]

/-- Settles O18: both directions complete on the same key, and their round keys are each other's reverse. -/
theorem keyScheduleReversal : Obligations.KeyScheduleReversal := by
  intro s hs
  refine ⟨_, _, exec_keyexp_of_keyWritten hs true, exec_keyexp_of_keyWritten hs false, fun i h => ?_⟩
  simp only [if_true, Bool.false_eq_true, if_false, Vector.getElem_map, roundKeysDec_getElem_eq _ h]

/-- RK, RKV and RKDIR are as they were (R24, R130). -/
def SameRoundKeys (s t : State) : Prop :=
  t.rk = s.rk ∧ t.status.rkv = s.status.rkv ∧ t.status.rkdir = s.status.rkdir

/-- R130: a CMD write leaves RK, RKV and RKDIR as they are, or its word is a `sm4.keyexp` command that succeeded. -/
theorem IssueEffect.sameRoundKeys_or {s t : State} {c : Word} (h : IssueEffect s c t) :
    SameRoundKeys s t ∨ t.status.err = .none ∧ (c = encode .sm4KeyexpEnc ∨ c = encode .sm4KeyexpDec) := by
  cases h with
  | keyexpEnc v => exact .inr ⟨rfl, .inl rfl⟩
  | keyexpDec v => exact .inr ⟨rfl, .inr rfl⟩
  | _ => exact .inl ⟨rfl, rfl, rfl⟩

/-- R22, R51: CMD is reached by a 32-bit access at offset 0 alone. -/
theorem accessReg_eq_cmd {width off : Nat} (h : accessReg width off = .ok .cmd) : width = 32 ∧ off = 0x000 := by
  obtain ⟨hwidth, -, -, hreg⟩ := accessReg_eq_ok.1 h
  exact ⟨hwidth, regAt_eq_some.1 hreg⟩

/-- R130: an access leaves RK, RKV and RKDIR as they are, or it is the CMD write of a `sm4.keyexp` command that
succeeds. -/
theorem doAccess_sameRoundKeys_or {a : Access} {s t : State} (h : doAccess a s = .next t) :
    SameRoundKeys s t ∨ t.status.err = .none
      ∧ (a = .write 32 0x000 (encode .sm4KeyexpEnc) ∨ a = .write 32 0x000 (encode .sm4KeyexpDec)) := by
  obtain ⟨_, _, r, v, -, -, -, rfl⟩ | ⟨_, _, c, rfl, hcmd, hc⟩ | ⟨_, _, v, r, -, -, -, rfl⟩
    | ⟨_, b, -, -, -, rfl⟩ | ⟨a, bs, -, -, rfl⟩ := doAccess_eq_next.1 h
  · exact .inl ⟨rfl, rfl, rfl⟩
  · obtain ⟨rfl, rfl⟩ := accessReg_eq_cmd hcmd
    exact (issue_effect hc).sameRoundKeys_or.imp_right fun ⟨herr, hword⟩ =>
      ⟨herr, hword.imp (congrArg _) (congrArg _)⟩
  · exact .inl ⟨State.writeReg_rk s r v, by rw [State.writeReg_status], by rw [State.writeReg_status]⟩
  · exact .inl ⟨rfl, rfl, rfl⟩
  · exact .inl ⟨rfl, rfl, rfl⟩

/-- Settles O49, by the cases of a step: an access, a line's expansion, which changes the host's inputs alone, and a
reset. -/
theorem rkIsSnapshot : Obligations.RkIsSnapshot := by
  intro s t h
  obtain ⟨-, rfl⟩ | ⟨a, rest, hs, ha⟩ | ⟨p, rest, ops, -, -, rfl⟩ | ⟨rest, hs, -⟩ := step_eq_next.1 h
  · exact .inl ⟨rfl, rfl, rfl⟩
  · rw [hs]
    refine (doAccess_sameRoundKeys_or ha).imp_right fun ⟨herr, hword⟩ => .inr ⟨herr, ?_⟩
    exact hword.imp (congrArg (some <| Input.access ·)) (congrArg (some <| Input.access ·))
  · exact .inl ⟨rfl, rfl, rfl⟩
  · exact .inr (.inl (congrArg List.head? hs))

end Sys2Proof.Machine
end

section
/-! The SM4 block transform and the two commands that run it (spec/42_sm4_block_transform.md rules R140-R148,
spec/70_reset_and_hazards.md rule R246): O19, O20, O21, O22, O24, O25, O26. -/

namespace Sys2Proof.Machine

/-- R3: unpacking the word at an index gives the four bytes there. -/
theorem unbe32_be32at {s : List Byte} {k : Nat} (h : k + 3 < s.length) : unbe32 (be32at s k) = (s.drop k).take 4 := by
  rw [be32at_eq_be32 s k h, unbe32_be32, List.drop_eq_getElem_cons (by omega), List.drop_eq_getElem_cons (by omega),
    List.drop_eq_getElem_cons (by omega), List.drop_eq_getElem_cons h]
  rfl

/-- R55, R56: word i of a block is at byte 4 i. -/
theorem pack16_get (s : List Byte) (i : Fin 4) : (pack16 s).get i = be32at s (4 * i.val) := by
  fin_cases i <;> rfl

/-- R56: packing undoes unpacking, word by word. -/
theorem pack16_unpack16 (q : Quad Word) : pack16 (unpack16 q) = q := by
  refine Quad.ext_get fun i => ?_
  fin_cases i <;> exact be32_lane _

/-- R56: unpacking undoes packing, since the four words cover the 16 bytes in order. -/
theorem unpack16_pack16 {p : List Byte} (h : p.length = 16) : unpack16 (pack16 p) = p :=
  calc unpack16 (pack16 p)
    _ = (p.drop 0).take 4 ++ (p.drop 4).take 4 ++ (p.drop 8).take 4 ++ (p.drop 12).take 4 := by
      rw [unpack16, pack16, unbe32_be32at (by omega), unbe32_be32at (by omega), unbe32_be32at (by omega),
        unbe32_be32at (by omega)]
    _ = p.take 16 := by rw [List.drop_zero, ← List.take_add, ← List.take_add, ← List.take_add]
    _ = p := List.take_of_length_le h.le

/-- R140: the first four words of the buffer are the block's. -/
theorem blockBuf_seed (p : Quad Word) (rks : Vector Word 32) (i : Fin 4) : (blockBuf p rks)[i.val] = p.get i :=
  (List.getElem_eq_iff _).2 (feistelBuf_seed mixT p rks.toList i)

/-- R141: round i reads words i to i + 3 of the buffer and round key i, and gives word i + 4. -/
theorem blockBuf_add_four (p : Quad Word) (rks : Vector Word 32) {i : Nat} (hi : i < 32) :
    (blockBuf p rks)[i + 4]
      = (blockBuf p rks)[i] ^^^ mixT ((blockBuf p rks)[i + 1] ^^^ (blockBuf p rks)[i + 2]
          ^^^ (blockBuf p rks)[i + 3] ^^^ rks[i]) :=
  feistelBuf_getElem_add_four mixT p rks.toList (by rwa [Vector.length_toList])
    (by rw [feistelBuf_length, Vector.length_toList]; exact Nat.add_lt_add_right hi 4)

/-- Settles O19: the buffer of the packed block. -/
theorem blockTransformRecurrence : Obligations.BlockTransformRecurrence := fun p rks _ =>
  ⟨blockBuf (pack16 p) rks, fun w h => (blockBuf_seed _ rks ⟨w, h⟩).trans (pack16_get p ⟨w, h⟩),
    fun _ h => blockBuf_add_four _ rks h, rfl⟩

/-- R143: with round keys `sm4.crypt` reads its block, then the round keys. -/
theorem exec_sm4Crypt_of_rkv {s : State} (hrkv : s.status.rkv = true) :
    exec .sm4Crypt s = withRead (s.readBin 0) fun p =>
      withRead s.readRk fun rks => succeed (s.writeBout 0 (sm4Words p rks)) := if_pos hrkv

/-- Settles O20: `sm4.crypt` with no round keys, with everything it reads defined, and with a ⊥ word in its block. -/
theorem cryptOutcome : Obligations.CryptOutcome := by
  refine ⟨by decide, fun s => ⟨fun hrkv => ?_, fun hrkv hrk hbin => ?_, fun hrkv hbin => ?_⟩⟩
  · exact execSm4Crypt_eq_next.2 (.inl ⟨hrkv, rfl⟩)
  · exact exec_sm4Crypt_of_written hrkv hrk (State.readBin_eq_ok.2 ⟨hbin, rfl⟩)
  · rw [exec_sm4Crypt_of_rkv hrkv, State.readBin_eq_error.2 ⟨hbin, rfl⟩, withRead_error]

/-- R144: with the capability and round keys `sm4.crypt4` reads its four blocks, then the round keys. -/
theorem exec_sm4Crypt4_of_rkv {s : State} (hx4 : s.params.hasX4 = true) (hrkv : s.status.rkv = true) :
    exec .sm4Crypt4 s = withRead s.readBinAll fun ps =>
      withRead s.readRk fun rks => succeed (s.writeBoutAll (ps.map fun p => sm4Words p rks)) :=
  (if_pos hx4).trans (if_pos hrkv)

/-- R144: `sm4.crypt4` with the capability, round keys and four defined blocks. -/
theorem exec_sm4Crypt4_of_written {s : State} (hx4 : s.params.hasX4 = true) (hrkv : s.status.rkv = true)
    (hrk : s.RkWritten) (hbin : ∀ l, s.BinWritten l) :
    exec .sm4Crypt4 s = .next ((s.writeBoutAll <|
      s.bin.map fun q => sm4Words (q.map RegWord.val) (s.rk.map RegWord.val)).setErr .none) := by
  rw [exec_sm4Crypt4_of_rkv hx4 hrkv, State.readBinAll_eq_ok.2 ⟨hbin, rfl⟩, State.readRk_eq_ok.2 ⟨hrk, rfl⟩]
  rfl

/-- R144, R212: reading the four blocks is the model fault when one of their words is ⊥. -/
theorem State.readBinAll_of_bottom {s : State} (h : ∃ l w, ((s.bin.get l).get w).written = false) :
    s.readBinAll = .error .unwrittenRead := by
  cases hread : s.readBinAll with
  | ok ps =>
    obtain ⟨l, w, hlw⟩ := h
    exact absurd ((State.readBinAll_eq_ok.1 hread).1 l w) (by rw [hlw]; exact Bool.false_ne_true)
  | error f => rw [f.eq_unwrittenRead]

/-- Settles O21: `sm4.crypt4` without the capability, with no round keys, with everything it reads defined, and with a
⊥ word in a block. -/
theorem crypt4Outcome : Obligations.Crypt4Outcome := by
  refine ⟨by decide, fun s => ⟨fun hx4 => ?_, fun hx4 hrkv => ?_, fun hx4 hrkv hrk hbin => ?_,
    fun hx4 hrkv hbin => ?_⟩⟩
  · exact exec_sm4Crypt4_of_no_x4 hx4
  · exact execSm4Crypt4_eq_next.2 (.inr (.inl ⟨hx4, hrkv, rfl⟩))
  · exact exec_sm4Crypt4_of_written hx4 hrkv hrk hbin
  · rw [exec_sm4Crypt4_of_rkv hx4 hrkv, State.readBinAll_of_bottom hbin, withRead_error]

/-- Settles O22: both lanes hold the transform of BIN[l] under RK. -/
theorem crypt4LanesEqualCrypt : Obligations.Crypt4LanesEqualCrypt := by
  intro s hx4 hrkv hrk hbin
  refine ⟨_, exec_sm4Crypt4_of_written hx4 hrkv hrk hbin, fun l => ?_⟩
  refine ⟨_, exec_sm4Crypt_of_written (s := { s with bin := s.bin.set 0 (s.bin.get l) }) hrkv hrk
    (State.readBin_eq_ok.2 ⟨hbin l, rfl⟩), ?_⟩
  simp only [State.setErr_bout, State.writeBoutAll_bout, State.writeBout_bout, Quad.get_map, Quad.get_set_self]

/-- Settles O26: neither case of `sm4.crypt` looks at RKDIR. -/
theorem directionIsNotChecked : Obligations.DirectionIsNotChecked := by
  intro s t b h
  obtain ⟨hrkv, rfl⟩ | ⟨hrkv, p, rks, hbin, hrk, rfl⟩ := execSm4Crypt_eq_next.1 h
  · exact execSm4Crypt_eq_next.2 (.inl ⟨hrkv, rfl⟩)
  · exact execSm4Crypt_eq_next.2 (.inr ⟨hrkv, p, rks, hbin, hrk, rfl⟩)

/-- R147: the rounds run again on the reversed window with the keys in the opposite order undo one another, the last
round first. -/
theorem foldl_feistelRound_reverse (mix : Word → Word) (w : Quad Word) (ks : List Word) :
    ks.reverse.foldl (feistelRound mix) (ks.foldl (feistelRound mix) w).reverse = w.reverse := by
  induction ks generalizing w with
  | nil => rfl
  | cons k ks ih =>
    rw [List.reverse_cons, List.foldl_append, List.foldl_cons, List.foldl_cons, List.foldl_nil, ih,
      feistelRound_reverse]

/-- R147, R148: the transform of words under the reversed keys undoes the transform. -/
theorem sm4Words_reverse (p : Quad Word) (rks : Vector Word 32) : sm4Words (sm4Words p rks) rks.reverse = p := by
  rw [sm4Words_eq, sm4Words_eq, Vector.toList_reverse, foldl_feistelRound_reverse, Quad.reverse_reverse]

/-- R147, R148: the transform of a block under the reversed keys undoes the transform. -/
theorem sm4F_reverse {p : List Byte} (h : p.length = 16) (rks : Vector Word 32) :
    sm4F (sm4F p rks) rks.reverse = p := by
  rw [sm4F, sm4F, pack16_unpack16, sm4Words_reverse, unpack16_pack16 h]

/-- Settles O24: reversing the keys twice gives them back, so each transform undoes the other. -/
theorem transformIsBijection : Obligations.TransformIsBijection := by
  refine fun p rks h => ⟨rfl, sm4F_reverse h rks, ?_⟩
  simpa only [Vector.reverse_reverse] using sm4F_reverse h rks.reverse

/-- R126, R129: the decryption order is the encryption order reversed. -/
theorem roundKeysDec_eq_reverse (mk : Quad Word) : roundKeysDec mk = (roundKeysEnc mk).reverse :=
  Vector.ext fun _ hi => (roundKeysDec_getElem_eq mk hi).trans (Vector.getElem_reverse hi).symm

/-- R143: `sm4.crypt` on a state that holds given round keys and a given block. -/
theorem exec_sm4Crypt_of_holds {s : State} {p : Quad Word} {rks : Vector Word 32} (hrkv : s.status.rkv = true)
    (hrk : s.rk = rks.map RegWord.of) (hbin : s.bin.get 0 = p.map RegWord.of) :
    exec .sm4Crypt s = .next ((s.writeBout 0 (sm4Words p rks)).setErr .none) := by
  have hval : s.rk.map RegWord.val = rks := by rw [hrk, Vector.map_map]; exact Vector.map_id rks
  rw [← hval]
  refine exec_sm4Crypt_of_written hrkv (fun i => ?_) ((congrArg readQuad hbin).trans (readQuad_map_of p))
  simp only [hrk, Fin.getElem_fin, Vector.getElem_map, RegWord.of_written]

/-- R77: a mnemonic in the host's program runs its command. -/
theorem runsTo_command {i : Instr} {s t : State} (h : exec i s = .next t) (rest : List Input) :
    (s.setInputs (.pseudo (.command i) :: rest)).runsTo (t.setInputs rest) :=
  runsTo_of_expand rfl (performs_issueOp h) rest

/-- The host's program is done, and its last command succeeded and left these words in BOUT[0]. -/
def EndsWith (t : State) (q : Quad Word) : Prop :=
  t.inputs = [] ∧ t.status.err = .none ∧ t.bout.get 0 = q.map RegWord.of

/-- R147: the host sequence that encrypts a block ends with the transform under the encryption-order keys, and KEY still
holds the key. -/
theorem exists_runsTo_encrypt (s : State) {k p : List Byte} (hk : k.length = 16) (hp : p.length = 16) :
    ∃ t : State,
      (s.setInputs [.pseudo (.setkey k), .pseudo (.command .sm4KeyexpEnc), .pseudo (.setblk 0 p),
          .pseudo (.command .sm4Crypt)]).runsTo t
        ∧ EndsWith t (sm4Words (pack16 p) (roundKeysEnc (pack16 k))) ∧ t.readKey = .ok (pack16 k) := by
  have hsetkey := runsTo_of_expand (expand_setkey hk) (performs_setkey (pack16 k) s)
  have hkeyexp := exec_keyexp (s := { s with key := (pack16 k).map RegWord.of }) (readQuad_map_of (pack16 k)) true
  have hsetblk := runsTo_of_expand (expand_setblk hp 0)
    (performs_setblk 0 (pack16 p) (s.withExpandedKey (pack16 k) true))
  exact ⟨_, State.runsTo_trans (hsetkey _) <| State.runsTo_trans (runsTo_command hkeyexp _) <|
    State.runsTo_trans (hsetblk _) (runsTo_command (exec_sm4Crypt_of_holds rfl rfl rfl) []),
    ⟨rfl, rfl, rfl⟩, readQuad_map_of (pack16 k)⟩

/-- R147: the host sequence that decrypts four words with the key in KEY ends with the transform under the
decryption-order keys. -/
theorem exists_runsTo_decrypt {t : State} {mk : Quad Word} (hkey : t.readKey = .ok mk) (c : Quad Word) :
    ∃ u : State,
      (t.setInputs [.access (wr (.bin 0 0) c.w0), .access (wr (.bin 0 1) c.w1), .access (wr (.bin 0 2) c.w2),
          .access (wr (.bin 0 3) c.w3), .pseudo (.command .sm4KeyexpDec), .pseudo (.command .sm4Crypt)]).runsTo u
        ∧ EndsWith u (sm4Words c (roundKeysDec mk)) := by
  have hcopy := performs_setblk 0 c t
  have hkeyexp := exec_keyexp (s := { t with bin := t.bin.set 0 (c.map RegWord.of) }) hkey false
  exact ⟨_, State.runsTo_trans (hcopy _) <| State.runsTo_trans (runsTo_command hkeyexp _)
    (runsTo_command (exec_sm4Crypt_of_holds rfl rfl rfl) []), rfl, rfl, rfl⟩

/-- Settles O25: the decryption-order keys are the reversed ones, and each half of the host sequence runs to its end. -/
theorem encryptDecryptRoundTrip : Obligations.EncryptDecryptRoundTrip := by
  refine ⟨fun k p _ hp => ?_, fun s k p hk hp => ?_⟩
  · rw [roundKeysDec_eq_reverse, sm4F_reverse hp]
  · obtain ⟨t, ht, ⟨htdone, hterr, htout⟩, hkey⟩ := exists_runsTo_encrypt s hk hp
    obtain ⟨u, hu, hudone, huerr, huout⟩ := exists_runsTo_decrypt hkey
      (sm4Words (pack16 p) (roundKeysEnc (pack16 k)))
    rw [roundKeysDec_eq_reverse, sm4Words_reverse] at huout
    exact ⟨t, u, _, ht, htdone, hterr, htout, hu, hudone, huerr, huout⟩

end Sys2Proof.Machine
end

section
/-! SM3: the padded message, the message schedule, the rounds of the compression, and the command that runs the chain of
them (spec/43_sm3_hash.md rules R160-R174): O27, O28, O29, O30. -/

namespace Sys2Proof.Machine

/-- R166: the zero count as the spec writes it, where 55 - n may be negative. -/
theorem zeroCount_eq_emod (n : Nat) : (zeroCount n : Int) = (55 - (n : Int)) % 64 := by
  unfold zeroCount
  omega

/-- R57, R166: the length suffix is two words, and their value is the bit count mod 2^64. -/
theorem exists_lengthSuffix_eq (n : Nat) :
    ∃ hi lo : Word, hi.toNat * 2 ^ 32 + lo.toNat = 8 * n % 2 ^ 64 ∧ lengthSuffix n = unbe32 hi ++ unbe32 lo := by
  refine ⟨BitVec.ofNat 32 (8 * n % 2 ^ 64 / 2 ^ 32), BitVec.ofNat 32 (8 * n % 2 ^ 64 % 2 ^ 32), ?_, rfl⟩
  rw [BitVec.toNat_ofNat, BitVec.toNat_ofNat]
  omega

/-- R167: the padded message fills whole blocks. -/
theorem pad_length_mod (m : List Byte) : (pad m).length % 64 = 0 := by
  rw [pad_length]
  exact (zeroCount_spec m.length).2

/-- R167: the number of blocks of a message, from its length alone. -/
theorem blocks_pad_length (m : List Byte) : (blocks (pad m)).length = (m.length + 8) / 64 + 1 := by
  obtain ⟨hz, hmod⟩ := zeroCount_spec m.length
  rw [blocks_length, pad_length]
  omega

/-- Settles O27: the zero count closes the last block, so what stands before the eight bytes of the suffix is 56 bytes
modulo 64. -/
theorem paddingShape : Obligations.PaddingShape := by
  intro m
  obtain ⟨hz, hmod⟩ := zeroCount_spec m.length
  obtain ⟨hi, lo, hbits, hsuffix⟩ := exists_lengthSuffix_eq m.length
  refine ⟨zeroCount m.length, hi, lo, hz, zeroCount_eq_emod m.length, hbits, ?_, pad_length m, pad_length_mod m,
    blocks_pad_length m, by omega⟩
  rw [pad, hsuffix, ← List.append_assoc]

/-- R168: block t holds the words from byte 64 t on. -/
theorem blocks_getElem (pm : List Byte) {t : Nat} (ht : t < (blocks pm).length) : (blocks pm)[t] = blockWords pm t := by
  simp only [blocks, List.getElem_map, List.getElem_range]

/-- R168: the words of a block are big-endian. -/
theorem blockWords_getElem (pm : List Byte) (t : Nat) {i : Nat} (hi : i < 16) :
    (blockWords pm t)[i] = be32at pm (64 * t + 4 * i) := Vector.getElem_ofFn hi

/-- R169: extending in two runs. -/
theorem extendW_add (h : List Word) (m n : Nat) : extendW h (m + n) = extendW (extendW h m) n := by
  induction m generalizing h with
  | zero => rw [Nat.zero_add, extendW]
  | succ m ih => rw [Nat.succ_add, extendW, extendW, ih]

/-- The words of the schedule before word j, newest first (R169). -/
def wordsBefore (block : Vector Word 16) (j : Nat) : List Word := extendW block.toList.reverse (j - 16)

/-- There are j words before word j, for j from 16 on. -/
theorem wordsBefore_length (block : Vector Word 16) {j : Nat} (hj : 16 ≤ j) : (wordsBefore block j).length = j := by
  rw [wordsBefore, extendW_length, List.length_reverse, Vector.length_toList, Nat.add_sub_of_le hj]

/-- R169: word j comes from the words before it. -/
theorem wordsBefore_succ (block : Vector Word 16) {j : Nat} (hj : 16 ≤ j) :
    wordsBefore block (j + 1) = nextW (wordsBefore block j) :: wordsBefore block j := by
  rw [wordsBefore, wordsBefore, Nat.sub_add_comm hj, extendW_add]
  rfl

/-- R169: the schedule is its newest-first list of words read backwards. -/
theorem schedule_getElem?_eq (block : Vector Word 16) {i : Nat} (hi : i < 68) :
    (schedule block)[i]? = (wordsBefore block 68)[68 - 1 - i]? := by
  have hlen : (wordsBefore block 68).length = 68 := wordsBefore_length block (by decide)
  calc (schedule block)[i]?
    _ = (wordsBefore block 68).reverse[i]? := by rw [schedule, Vector.getElem?_mk, List.getElem?_toArray]; rfl
    _ = (wordsBefore block 68)[68 - 1 - i]? := by rw [List.getElem?_reverse (hlen.symm ▸ hi), hlen]

/-- R169: the words before word j are the schedule's own, since extending keeps them. -/
theorem wordsBefore_getElem? (block : Vector Word 16) {i j k : Nat} (hj : 16 ≤ j) (hj' : j ≤ 68) (hik : i + k + 1 = j) :
    (wordsBefore block j)[k]? = (schedule block)[i]? := by
  have hextend : extendW (wordsBefore block j) (68 - j) = wordsBefore block 68 := by
    rw [wordsBefore, wordsBefore, ← extendW_add, ← Nat.sub_add_comm hj, Nat.add_sub_of_le hj']
  rw [schedule_getElem?_eq block (by omega), ← hextend, show 68 - 1 - i = 68 - j + k by omega, extendW_getElem?]

/-- R169: the same, as the next word reads them. -/
theorem wordsBefore_getD (block : Vector Word 16) {i j k : Nat} (hj : 16 ≤ j) (hj' : j ≤ 68) (hik : i + k + 1 = j) :
    (wordsBefore block j).getD k 0 = (schedule block)[i] := by
  rw [List.getD_eq_getElem?_getD, wordsBefore_getElem? block hj hj' hik, Vector.getElem?_eq_getElem, Option.getD_some]

/-- R168: the first 16 words of the schedule are the block's. -/
theorem schedule_getElem_of_lt (block : Vector Word 16) {i : Nat} (hi : i < 16) : (schedule block)[i] = block[i] := by
  have hseed : wordsBefore block 16 = block.toList.reverse := rfl
  have hidx : block.toList.length - 1 - (15 - i) = i := by rw [Vector.length_toList]; omega
  rw [← wordsBefore_getD block (j := 16) (k := 15 - i) le_rfl (by decide) (by omega), hseed,
    List.getD_eq_getElem?_getD, List.getElem?_reverse (by rw [Vector.length_toList]; omega), hidx,
    List.getElem?_eq_getElem (by rwa [Vector.length_toList]), Option.getD_some, Vector.getElem_toList]

/-- R169: each further word of the schedule. -/
theorem schedule_getElem_of_ge (block : Vector Word 16) {j : Nat} (hj : 16 ≤ j) (hj' : j < 68) :
    (schedule block)[j]
      = p1 ((schedule block)[j - 16] ^^^ (schedule block)[j - 9] ^^^ rotl (schedule block)[j - 3] 15)
          ^^^ rotl (schedule block)[j - 13] 7 ^^^ (schedule block)[j - 6] := by
  have hold : ∀ {i k : Nat} (hik : i + k + 1 = j), (wordsBefore block j).getD k 0 = (schedule block)[i] :=
    wordsBefore_getD block hj hj'.le
  calc (schedule block)[j]
    _ = nextW (wordsBefore block j) := by
      rw [← wordsBefore_getD block (k := 0) (Nat.le_succ_of_le hj) hj' rfl, wordsBefore_succ block hj,
        List.getD_cons_zero]
    _ = _ := by
      rw [nextW, hold (i := j - 16) (by omega), hold (i := j - 9) (by omega), hold (i := j - 3) (by omega),
        hold (i := j - 13) (by omega), hold (i := j - 6) (by omega)]

/-- R170: the second schedule. -/
theorem schedule'_getElem (w : Vector Word 68) {j : Nat} (hj : j < 64) : (schedule' w)[j] = w[j] ^^^ w[j + 4] :=
  Vector.getElem_ofFn hj

/-- Settles O28: the blocks, their words, and the two schedules, rule by rule. -/
theorem scheduleRecurrence : Obligations.ScheduleRecurrence := by
  refine ⟨fun m => ⟨?_, fun t ht i hi => ?_⟩, fun block => ⟨fun _ hi => schedule_getElem_of_lt block hi,
    fun _ ⟨hj, hj'⟩ => schedule_getElem_of_ge block hj hj', fun _ hj => schedule'_getElem _ hj⟩⟩
  · rw [blocks_length, Nat.div_mul_cancel (Nat.dvd_of_mod_eq_zero (pad_length_mod m))]
  · rw [blocks_getElem, blockWords_getElem _ t hi]

/-- One more element of a list folded in. -/
theorem foldl_take_succ {α β : Type} (f : α → β → α) (x : α) (l : List β) {n : Nat} (hn : n < l.length) :
    (l.take (n + 1)).foldl f x = f ((l.take n).foldl f x) l[n] := by
  rw [← List.take_append_getElem hn, List.foldl_append, List.foldl_cons, List.foldl_nil]

/-- The working registers before round j (R171). -/
def roundRegs (v : Oct Word) (block : Vector Word 16) (j : Nat) : Oct Word :=
  ((List.finRange 64).take j).foldl
    (fun r j => sm3Round j.val (schedule block)[j.val] (schedule' (schedule block))[j.val] r) v

/-- R171: round j gives the registers before round j + 1. -/
theorem roundRegs_succ (v : Oct Word) (block : Vector Word 16) {j : Nat} (hj : j < 64) :
    roundRegs v block (j + 1)
      = sm3Round j (schedule block)[j] (schedule' (schedule block))[j] (roundRegs v block j) := by
  rw [roundRegs, foldl_take_succ _ _ _ (by rwa [List.length_finRange]), List.getElem_finRange]
  rfl

/-- R172: the compression folds the registers after the last round into V. -/
theorem cf_eq_xor_roundRegs (v : Oct Word) (block : Vector Word 16) : cf v block = v.xor (roundRegs v block 64) := by
  rw [roundRegs, List.take_of_length_le List.length_finRange.le]
  rfl

/-- Settles O29: the registers before each round are the sequence, and the round function's temporaries are the
statement's. -/
theorem compressionRounds : Obligations.CompressionRounds := fun v block =>
  ⟨roundRegs v block, rfl, fun _ hj => roundRegs_succ v block hj, fun k => by
    rw [cf_eq_xor_roundRegs, Oct.get_xor]⟩

/-- The state of the sequential chain before block t (R173). -/
def chainState (m : List Byte) (t : Nat) : Oct Word := ((blocks (pad m)).take t).foldl cf sm3IV

/-- R173: the chain compresses block t into its state. -/
theorem chainState_succ (m : List Byte) {t : Nat} (ht : t < (blocks (pad m)).length) :
    chainState m (t + 1) = cf (chainState m t) (blockWords (pad m) t) := by
  rw [chainState, foldl_take_succ _ _ _ ht, blocks_getElem]
  rfl

/-- R173: the digest is the state after the last block. -/
theorem chainState_length (m : List Byte) : chainState m (blocks (pad m)).length = hseq m := by
  rw [chainState, List.take_length, hseq]

/-- R174, R196, R212: reading the message is the model fault when a word of MSG_LEN or a byte of the message is ⊥. -/
theorem State.readMessage_of_bottom {s : State}
    (h : s.msgLenLo.written = false ∨ s.msgLenHi.written = false ∨ ∃ a < s.msgLen, memRead s.msgbuf a = none) :
    s.readMessage = .error .unwrittenRead := by
  cases hread : s.readMessage with
  | error f => rw [f.eq_unwrittenRead]
  | ok m =>
    obtain ⟨hlo, hhi, hlen, hbytes⟩ := State.readMessage_eq_ok_iff_holdsMessage.1 hread
    obtain h | h | ⟨a, ha, h⟩ := h
    · exact absurd (hlo.symm.trans h) nofun
    · exact absurd (hhi.symm.trans h) nofun
    · exact absurd ((hbytes a (hlen ▸ ha)).symm.trans h) nofun

/-- Settles O30: the chain over the blocks in order, the command on a message it can read, and the fault where it
cannot. -/
theorem hashOutcome : Obligations.HashOutcome := by
  refine ⟨by decide, fun s => ⟨fun m hm => ?_, fun h => ?_⟩⟩
  · have hblocks := blocks_pad_length m
    exact ⟨chainState m, rfl, fun t ht => chainState_succ m (hblocks ▸ ht), hblocks ▸ chainState_length m,
      exec_sm3Hash_of_holdsMessage hm⟩
  · exact withRead_eq_fault.2 (.inl (State.readMessage_of_bottom h))

end Sys2Proof.Machine
end

section
/-! The SM3 parallel chunk hasher: the cuts between the partitions, the lanes and their merge, the one-partition case,
the divergence from two on, and the command `sm3.hash.auto` (spec/44_sm3_parallel.md rules R190-R199): O31 to O38. -/

namespace Sys2Proof.Machine

/-- Where partition p starts, which is where partition p - 1 ends; cut n is the end of the blocks (R193). -/
def splitCut (b n p : Nat) : Nat := if p = n then b else p * (b / n)

/-- Every cut but the last is a multiple of q (R193). -/
theorem splitCut_of_ne {n p : Nat} (b : Nat) (h : p ≠ n) : splitCut b n p = p * (b / n) := if_neg h

/-- The last cut is the end of the blocks (R193). -/
theorem splitCut_self (b n : Nat) : splitCut b n n = b := if_pos rfl

/-- R193: each partition of the floor split is the range between two neighbouring cuts. -/
theorem floorSplit_eq_cuts (b n : Nat) :
    floorSplit b n = (List.range n).map fun p => (splitCut b n p, splitCut b n (p + 1)) :=
  List.map_congr_left fun p hp => by rw [splitCut_of_ne b (List.mem_range.1 hp).ne, splitCut]

/-- R193: the floor split has one range for each partition. -/
@[simp] theorem floorSplit_length (b n : Nat) : (floorSplit b n).length = n := by
  rw [floorSplit, List.length_map, List.length_range]

/-- R193: the bounds of partition p. -/
theorem floorSplit_getElem (b n : Nat) {p : Nat} (h : p < (floorSplit b n).length) :
    (floorSplit b n)[p] = (splitCut b n p, splitCut b n (p + 1)) := by
  simp only [floorSplit_eq_cuts, List.getElem_map, List.getElem_range]

/-- R193: with no more partitions than blocks, each partition takes at least one block. -/
theorem splitCut_lt_succ {b n p : Nat} (hn : n ≤ b) (hp : p < n) : splitCut b n p < splitCut b n (p + 1) := by
  have hq : 0 < b / n := Nat.div_pos hn (by omega)
  have hstep : p * (b / n) < (p + 1) * (b / n) := Nat.mul_lt_mul_of_pos_right p.lt_succ_self hq
  rw [splitCut_of_ne b hp.ne, splitCut]
  split
  case isTrue hlast =>
    calc p * (b / n) < (p + 1) * (b / n) := hstep
      _ ≤ b := hlast ▸ Nat.mul_div_le b n
  case isFalse => exact hstep

/-- R193: no cut lies beyond the last block. -/
theorem splitCut_le {b n p : Nat} (hp : p ≤ n) : splitCut b n p ≤ b := by
  unfold splitCut
  split
  · exact le_rfl
  · exact (Nat.mul_le_mul_right _ hp).trans (Nat.mul_div_le b n)

/-- Settles O32: the bounds are the cuts, and the cuts rise. -/
theorem floorSplitCovers : Obligations.FloorSplitCovers := by
  intro b n hn hnb
  refine ⟨Nat.div_pos hnb hn, floorSplit_length b n, fun p h => ?_⟩
  have hp : p < n := floorSplit_length b n ▸ h
  rw [floorSplit_getElem b n h]
  refine ⟨splitCut_of_ne b hp.ne, ?_, splitCut_lt_succ hnb hp, fun h' => by rw [floorSplit_getElem b n h']⟩
  have hlast : p + 1 = n ↔ p = n - 1 := by omega
  simp only [splitCut, hlast]

/-- A range inside the blocks has as many blocks as its bounds say. -/
theorem blockRange_length {bs : List (Vector Word 16)} {s e : Nat} (he : e ≤ bs.length) :
    (blockRange bs (s, e)).length = e - s := by
  rw [blockRange, List.length_take, List.length_drop]
  omega

/-- The range from the first block to the last is all the blocks. -/
theorem blockRange_zero_length (bs : List (Vector Word 16)) : blockRange bs (0, bs.length) = bs := List.take_length

/-- The ranges between rising cuts, in order, make up the blocks before the last cut. -/
theorem flatten_blockRange_cuts (bs : List (Vector Word 16)) {cut : Nat → Nat} {n : Nat} (hzero : cut 0 = 0)
    (hrise : ∀ p < n, cut p ≤ cut (p + 1)) :
    ((List.range n).map fun p => blockRange bs (cut p, cut (p + 1))).flatten = bs.take (cut n) := by
  induction n with
  | zero => rw [hzero]; rfl
  | succ n ih =>
    have hn : cut n + (cut (n + 1) - cut n) = cut (n + 1) := Nat.add_sub_of_le (hrise n n.lt_succ_self)
    rw [List.range_succ, List.map_append, List.flatten_append, ih fun p hp => hrise p (Nat.lt_succ_of_lt hp), ← hn,
      List.take_add, List.map_singleton, List.flatten_singleton]
    rfl

/-- R192, R194: the lanes under the floor split, by the cuts. -/
theorem partLanes_floorSplit (n : Nat) (bs : List (Vector Word 16)) :
    partLanes floorSplit n bs = (List.range (nEff n bs.length)).map fun p =>
      ⟨sm3IV, blockRange bs
        (splitCut bs.length (nEff n bs.length) p, splitCut bs.length (nEff n bs.length) (p + 1))⟩ := by
  rw [partLanes, floorSplit_eq_cuts, List.map_map]
  rfl

/-- Settles O33: the lanes' ranges are the ones between the cuts, none of them empty. -/
theorem partitionsCoverBlocks : Obligations.PartitionsCoverBlocks := by
  intro n m hn
  have hle : nEff n (blocks (pad m)).length ≤ (blocks (pad m)).length := Nat.min_le_right _ _
  have hpos : 0 < nEff n (blocks (pad m)).length := Nat.lt_min.2 ⟨hn, blocks_pad_pos m⟩
  rw [partLanes_floorSplit]
  refine ⟨by rw [List.length_map, List.length_range, nEff], fun l hl => ?_, ?_⟩
  · obtain ⟨p, hp, rfl⟩ := List.mem_map.1 hl
    have hp := List.mem_range.1 hp
    refine ⟨rfl, List.ne_nil_of_length_pos ?_⟩
    rw [blockRange_length (splitCut_le hp)]
    exact Nat.sub_pos_of_lt (splitCut_lt_succ hle hp)
  · rw [List.map_map]
    refine (flatten_blockRange_cuts _ ?_ fun p hp => (splitCut_lt_succ hle hp).le).trans ?_
    · rw [splitCut_of_ne _ hpos.ne, Nat.zero_mul]
    · rw [splitCut_self, List.take_length]

/-- R195: each word of the merge is the exclusive or of the states' words. -/
theorem merge_get (ps : List (Oct Word)) (k : Fin 8) :
    (merge ps).get k = (ps.map fun v => v.get k).foldr (· ^^^ ·) 0 := by
  induction ps with
  | nil => exact Oct.get_fill 0 k
  | cons v ps ih => rw [List.map_cons, List.foldr_cons, ← ih, ← Oct.get_xor]; rfl

/-- R195: the order of the states does not matter to the merge. -/
theorem merge_perm {ps qs : List (Oct Word)} (h : ps.Perm qs) : merge ps = merge qs := by
  have : Std.Commutative Oct.xor := ⟨Oct.xor_comm⟩
  have : Std.Associative Oct.xor := ⟨Oct.xor_assoc⟩
  exact h.foldr_op_eq

/-- R195: one state is its own merge. -/
theorem merge_singleton (v : Oct Word) : merge [v] = v := Oct.xor_zero v

/-- Settles O34: exclusive or acts on each word alone, and it is commutative and associative. -/
theorem mergeIsOrderFree : Obligations.MergeIsOrderFree := ⟨merge_get, fun _ _ => merge_perm⟩

/-- Settles O35: at the join the lanes hold what they compute, whatever the schedule was, and Hpar merges that. -/
theorem partitionLanesAnySchedule : Obligations.PartitionLanesAnySchedule := fun _ _ =>
  ⟨fun _ h => congrArg merge (map_state_runLanes cf _ h), exists_joined_runLanes cf _⟩

/-- R193: one partition is all the blocks. -/
theorem floorSplit_one (b : Nat) : floorSplit b 1 = [(0, b)] := by
  rw [floorSplit_eq_cuts, List.range_one, List.map_singleton, splitCut_self, splitCut_of_ne b zero_ne_one, Nat.zero_mul]

/-- Settles O36: the one lane folds all the blocks into IV, the sequential chain, and its state is the merge. -/
theorem singlePartitionIsStandard : Obligations.SinglePartitionIsStandard := by
  intro n m h
  rw [hpar, hparWith, partLanes, h, floorSplit_one, List.map_singleton, List.map_singleton, merge_singleton,
    blockRange_zero_length]
  rfl

/-- V50: 64 bytes of "a" over two partitions. -/
theorem hpar_two_sixtyFourA :
    hpar 2 (List.replicate 64 0x61)
      = ⟨0x3E366D12, 0x0C19C9EB, 0xA854E59F, 0xB6B91D5E, 0x61A4E871, 0xAB982D1F, 0x6BD5F479, 0x7F896964⟩ := by
  decide +kernel

/-- V44: the standard digest of 64 bytes of "a". -/
theorem hseq_sixtyFourA :
    hseq (List.replicate 64 0x61)
      = ⟨0x616EC433, 0xC359E7C2, 0xB19F360E, 0x2B8F2A1B, 0x6E9ED76B, 0x8DC1A7D2, 0x07B31A53, 0x41C611E9⟩ := by
  decide +kernel

/-- Settles O37: 64 bytes of "a" are two blocks, and the two known answers for them differ (V50). -/
theorem chunkedPathDiverges : Obligations.ChunkedPathDiverges := by
  refine ⟨2, List.replicate 64 0x61, ?_, ?_⟩
  · rw [blocks_pad_length, List.length_replicate]
    decide
  · rw [hpar_two_sixtyFourA, hseq_sixtyFourA]
    decide

/-- R190: the chunked path is taken exactly above P_THRESHOLD. -/
theorem chunked_eq_true {p : Params} {m : List Byte} : chunked p m = true ↔ p.threshold < (pad m).length :=
  decide_eq_true_iff

/-- R190: the sequential path is taken exactly up to P_THRESHOLD. -/
theorem chunked_eq_false {p : Params} {m : List Byte} : chunked p m = false ↔ (pad m).length ≤ p.threshold :=
  decide_eq_false_iff_not.trans Nat.not_lt

/-- Settles O38: 1,048,576 is a multiple of 64, so the padded length, the least multiple of 64 from n + 9 on, passes it
exactly when n + 9 does. -/
theorem referenceThresholdBoundary : Obligations.ReferenceThresholdBoundary := by
  refine ⟨rfl, fun p m hp => ?_⟩
  obtain ⟨hz, hmod⟩ := zeroCount_spec m.length
  rw [chunked_eq_true, chunked_eq_false, hp, pad_length]
  exact ⟨fun _ => by omega, fun _ => by omega, fun _ => by omega⟩

/-- R194, R195: the chunked value with its ranges and chains written out. -/
theorem hpar_eq_merge (n : Nat) (m : List Byte) :
    hpar n m = merge ((floorSplit (blocks (pad m)).length (nEff n (blocks (pad m)).length)).map fun r =>
      (blockRange (blocks (pad m)) r).foldl cf sm3IV) := by
  rw [hpar, hparWith, partLanes, List.map_map]
  rfl

/-- R190: the digest of `sm3.hash.auto` by the comparison. -/
theorem hauto_eq_ite (p : Params) (m : List Byte) :
    hauto p m = if p.threshold < (pad m).length then hpar p.nLanes m else hseq m := by
  simp only [hauto, chunked_eq_true]

/-- R196: `sm3.hash.auto` on a held message. -/
theorem exec_sm3HashAuto_of_holdsMessage {s : State} {m : List Byte} (h : s.HoldsMessage m) :
    exec .sm3HashAuto s = .next (((s.writeDigest (hauto s.params m)).setPar (chunked s.params m)).setErr .none) :=
  execSm3HashAuto_eq_next.2 ⟨m, State.readMessage_eq_ok_iff_holdsMessage.2 h, rfl⟩

/-- Settles O31: the command on a message it can read, by the path the comparison selects, and the fault where it
cannot. -/
theorem hashAutoOutcome : Obligations.HashAutoOutcome := by
  refine ⟨by decide, fun s => ⟨fun m hm => ?_, fun h => ?_⟩⟩
  · rw [exec_sm3HashAuto_of_holdsMessage hm, hauto_eq_ite, hpar_eq_merge, floorSplit, List.map_map]
    rfl
  · exact withRead_eq_fault.2 (.inl (State.readMessage_of_bottom h))

end Sys2Proof.Machine
end

section
/-! How a command ends other than by completing: the error code it leaves and the model fault it stops with
(spec/60_exceptions.md rules R210-R214): O43, O44, O45. -/

namespace Sys2Proof.Machine

/-- Settles O43: of the effects of a CMD write, the one with an error code writes ERR alone. -/
theorem failedCommandWritesOnlyErr : Obligations.FailedCommandWritesOnlyErr := by
  intro c s t h herr
  cases issue_effect h with
  | failed c e he => rfl
  | _ => exact absurd rfl herr

/-- R210, R214: the error code a command leaves when it ends: the capability of `sm4.crypt4` is checked first, then
RKV. -/
def endCode (i : Instr) (s : State) : ErrCode :=
  match i with
  | .sm4Crypt => if s.status.rkv then .none else .noKey
  | .sm4Crypt4 => if s.params.hasX4 then if s.status.rkv then .none else .noKey else .illegal
  | .sm4KeyexpEnc | .sm4KeyexpDec | .sm3Hash | .sm3HashAuto => .none

/-- A command that ends leaves its error code in STATUS.ERR. -/
theorem exec_err {i : Instr} {s t : State} (h : exec i s = .next t) : t.status.err = endCode i s := by
  cases i with
  | sm4KeyexpEnc =>
    obtain ⟨mk, -, rfl⟩ := execSm4KeyexpEnc_eq_next.1 h
    rfl
  | sm4KeyexpDec =>
    obtain ⟨mk, -, rfl⟩ := execSm4KeyexpDec_eq_next.1 h
    rfl
  | sm4Crypt =>
    obtain ⟨hrkv, rfl⟩ | ⟨hrkv, p, rks, -, -, rfl⟩ := execSm4Crypt_eq_next.1 h
    · simp [endCode, hrkv]
    · simp [endCode, hrkv]
  | sm4Crypt4 =>
    obtain ⟨hx4, rfl⟩ | ⟨hx4, hrkv, rfl⟩ | ⟨hx4, hrkv, ps, rks, -, -, rfl⟩ := execSm4Crypt4_eq_next.1 h
    · simp [endCode, hx4]
    · simp [endCode, hx4, hrkv]
    · simp [endCode, hx4, hrkv]
  | sm3Hash =>
    obtain ⟨m, -, rfl⟩ := execSm3Hash_eq_next.1 h
    rfl
  | sm3HashAuto =>
    obtain ⟨m, -, rfl⟩ := execSm3HashAuto_eq_next.1 h
    rfl

/-- R74, R210: the one command that can end with ILLEGAL is `sm4.crypt4`, without the capability. -/
theorem endCode_eq_illegal {i : Instr} {s : State} :
    endCode i s = .illegal ↔ i = .sm4Crypt4 ∧ s.params.hasX4 = false := by
  cases i with
  | sm4Crypt => cases hrkv : s.status.rkv <;> simp [endCode, hrkv]
  | sm4Crypt4 => cases hx4 : s.params.hasX4 <;> cases hrkv : s.status.rkv <;> simp [endCode, hx4, hrkv]
  | _ => simp [endCode]

/-- R210: the commands that end with NO_KEY are the transforms that find RKV = 0. -/
theorem endCode_eq_noKey {i : Instr} {s : State} :
    endCode i s = .noKey
      ↔ s.status.rkv = false ∧ (i = .sm4Crypt ∨ (i = .sm4Crypt4 ∧ s.params.hasX4 = true)) := by
  cases i with
  | sm4Crypt => cases hrkv : s.status.rkv <;> simp [endCode, hrkv]
  | sm4Crypt4 => cases hx4 : s.params.hasX4 <;> cases hrkv : s.status.rkv <;> simp [endCode, hx4, hrkv]
  | _ => simp [endCode]

/-- R73, R210: a CMD write leaves its command's code, or ILLEGAL when the word is no command's. -/
theorem issue_err {c : Word} {s t : State} (h : issue c s = .next t) :
    (∃ i, c = encode i ∧ t.status.err = endCode i s) ∨ ((∀ i, c ≠ encode i) ∧ t.status.err = .illegal) := by
  obtain ⟨i, hi, ht⟩ | ⟨⟨e, he⟩, rfl⟩ := issue_eq_next.1 h
  · exact .inl ⟨i, decode_eq_ok.1 hi, exec_err ht⟩
  · exact .inr ⟨fun i hi => absurd ((decode_eq_ok.2 hi).symm.trans he) nofun, rfl⟩

/-- Settles O44: each code by the command of the word, or its being no command's, and ERR as the field 7:4. -/
theorem errorCodes : Obligations.ErrorCodes := by
  intro c s t h
  refine and_assoc.1 ⟨?_, ?_⟩
  · obtain ⟨i, rfl, herr⟩ | ⟨hc, herr⟩ := issue_err h
    · have hcommand : ¬ ∀ j, encode i ≠ encode j := fun hne => hne i rfl
      simp only [herr, endCode_eq_illegal, endCode_eq_noKey, encode_injective.eq_iff, hcommand, false_or, and_self]
    · simp [herr, hc]
  · rw [Status.toWord_errField]
    cases t.status.err <;> rfl

/-- A command that reads and then completes faults exactly when the read does. -/
theorem withRead_succeed_eq_fault {α : Type} {r : Except Fault α} {k : α → State} {f : Fault} :
    withRead r (fun a => succeed (k a)) = .fault f ↔ r = .error f := by
  simp [withRead_eq_fault, succeed]

/-- R212: KEY raises the model fault exactly when one of its words is ⊥. -/
theorem State.readKey_eq_error {s : State} {f : Fault} :
    s.readKey = .error f ↔ ∃ i, (s.key.get i).written = false :=
  readQuad_eq_error.trans (and_iff_left f.eq_unwrittenRead)

/-- R212: the four blocks raise the model fault exactly when one of their words is ⊥. -/
theorem State.readBinAll_eq_error {s : State} {f : Fault} :
    s.readBinAll = .error f ↔ ∃ l w, ((s.bin.get l).get w).written = false :=
  ⟨fun h => (State.readBinAll_error h).2, fun h => f.eq_unwrittenRead ▸ State.readBinAll_of_bottom h⟩

/-- R32, R53: with MSG_LEN and every byte below it defined, the state holds a message. -/
theorem State.exists_holdsMessage {s : State} (hlo : s.msgLenLo.written = true) (hhi : s.msgLenHi.written = true)
    (hbytes : ∀ a < s.msgLen, memRead s.msgbuf a ≠ none) : ∃ m, s.HoldsMessage m :=
  ⟨List.ofFn fun a : Fin s.msgLen => (memRead s.msgbuf a).get (Option.isSome_iff_ne_none.2 (hbytes a a.isLt)),
    hlo, hhi, List.length_ofFn.symm, fun a ha => by simp⟩

/-- R212: the message raises the model fault exactly when a word of MSG_LEN or a byte below it is ⊥. -/
theorem State.readMessage_eq_error {s : State} {f : Fault} :
    s.readMessage = .error f
      ↔ s.msgLenLo.written = false ∨ s.msgLenHi.written = false ∨ ∃ a < s.msgLen, memRead s.msgbuf a = none := by
  refine ⟨fun h => ?_, fun h => f.eq_unwrittenRead ▸ State.readMessage_of_bottom h⟩
  by_contra! hdefined
  obtain ⟨hlo, hhi, hbytes⟩ := hdefined
  obtain ⟨m, hm⟩ := State.exists_holdsMessage (Bool.of_not_eq_false hlo) (Bool.of_not_eq_false hhi) hbytes
  exact absurd (h.symm.trans (State.readMessage_eq_ok_iff_holdsMessage.2 hm)) nofun

/-- R24, R40: in the states the invariant allows, RK can be read once RKV is 1. -/
theorem State.Inv.exists_readRk_eq_ok {s : State} (hs : s.Inv) (hrkv : s.status.rkv = true) :
    ∃ rks, s.readRk = .ok rks := by
  obtain ⟨-, hrk, -⟩ := hs
  exact ⟨_, State.readRk_eq_ok.2 ⟨fun i => (hrk i).trans hrkv, rfl⟩⟩

/-- R212, R214: an operand of the command is ⊥, and no earlier check of the command stops it. -/
def ReadsBottom (i : Instr) (s : State) : Prop :=
  match i with
  | .sm4KeyexpEnc | .sm4KeyexpDec => ∃ i : Fin 4, (s.key.get i).written = false
  | .sm4Crypt => s.status.rkv = true ∧ ∃ w : Fin 4, ((s.bin.get 0).get w).written = false
  | .sm4Crypt4 =>
    s.params.hasX4 = true ∧ s.status.rkv = true ∧ ∃ l w : Fin 4, ((s.bin.get l).get w).written = false
  | .sm3Hash | .sm3HashAuto =>
    s.msgLenLo.written = false ∨ s.msgLenHi.written = false ∨ ∃ a < s.msgLen, memRead s.msgbuf a = none

/-- R143, R212, R214: `sm4.crypt` faults exactly on a ⊥ word of its block, with RKV = 1. -/
theorem exec_sm4Crypt_eq_fault {s : State} (hs : s.Inv) {f : Fault} :
    exec .sm4Crypt s = .fault f ↔ ReadsBottom .sm4Crypt s := by
  cases hrkv : s.status.rkv with
  | false =>
    have hnoKey : exec .sm4Crypt s = .next (s.setErr .noKey) := execSm4Crypt_eq_next.2 (.inl ⟨hrkv, rfl⟩)
    simp [hnoKey, ReadsBottom, hrkv]
  | true =>
    obtain ⟨rks, hrks⟩ := hs.exists_readRk_eq_ok hrkv
    simp only [exec_sm4Crypt_of_rkv hrkv, hrks, withRead_ok, withRead_succeed_eq_fault, State.readBin_eq_error,
      f.eq_unwrittenRead, ReadsBottom, hrkv, and_true, true_and]

/-- R144, R212, R214: `sm4.crypt4` faults exactly on a ⊥ word of BIN, with the capability and RKV = 1. -/
theorem exec_sm4Crypt4_eq_fault {s : State} (hs : s.Inv) {f : Fault} :
    exec .sm4Crypt4 s = .fault f ↔ ReadsBottom .sm4Crypt4 s := by
  cases hx4 : s.params.hasX4 with
  | false =>
    simp [exec_sm4Crypt4_of_no_x4 hx4, failWith, ReadsBottom, hx4]
  | true =>
    cases hrkv : s.status.rkv with
    | false =>
      have hnoKey : exec .sm4Crypt4 s = .next (s.setErr .noKey) :=
        execSm4Crypt4_eq_next.2 (.inr (.inl ⟨hx4, hrkv, rfl⟩))
      simp [hnoKey, ReadsBottom, hrkv]
    | true =>
      obtain ⟨rks, hrks⟩ := hs.exists_readRk_eq_ok hrkv
      simp only [exec_sm4Crypt4_of_rkv hx4 hrkv, hrks, withRead_ok, withRead_succeed_eq_fault,
        State.readBinAll_eq_error, ReadsBottom, hx4, hrkv, true_and]

/-- R212, R214: a command faults exactly when it reads a ⊥ operand. -/
theorem exec_eq_fault {i : Instr} {s : State} (hs : s.Inv) {f : Fault} : exec i s = .fault f ↔ ReadsBottom i s := by
  cases i with
  | sm4KeyexpEnc => exact withRead_succeed_eq_fault.trans State.readKey_eq_error
  | sm4KeyexpDec => exact withRead_succeed_eq_fault.trans State.readKey_eq_error
  | sm4Crypt => exact exec_sm4Crypt_eq_fault hs
  | sm4Crypt4 => exact exec_sm4Crypt4_eq_fault hs
  | sm3Hash => exact withRead_succeed_eq_fault.trans State.readMessage_eq_error
  | sm3HashAuto => exact withRead_succeed_eq_fault.trans State.readMessage_eq_error

/-- R73, R212: a CMD write faults exactly when its word is a command's that faults. -/
theorem issue_eq_fault {c : Word} {s : State} {f : Fault} :
    issue c s = .fault f ↔ ∃ i, c = encode i ∧ exec i s = .fault f := by
  simp only [← decode_eq_ok, issue]
  cases decode c with
  | ok i => simp
  | error e => simp [failWith]

/-- Settles O45: the command words, each with its command's condition. -/
theorem commandFaults : Obligations.CommandFaults := by
  intro c s f hs
  simp only [issue_eq_fault, exec_eq_fault hs, f.eq_unwrittenRead, true_and]
  constructor
  · rintro ⟨i, rfl, h⟩
    cases i with
    | sm4KeyexpEnc => exact .inl ⟨.inl rfl, h⟩
    | sm4KeyexpDec => exact .inl ⟨.inr rfl, h⟩
    | sm4Crypt => exact .inr (.inl ⟨rfl, h⟩)
    | sm4Crypt4 => exact .inr (.inr (.inl ⟨rfl, h⟩))
    | sm3Hash => exact .inr (.inr (.inr ⟨.inl rfl, h⟩))
    | sm3HashAuto => exact .inr (.inr (.inr ⟨.inr rfl, h⟩))
  · rintro (⟨rfl | rfl, h⟩ | ⟨rfl, h⟩ | ⟨rfl, h⟩ | ⟨rfl | rfl, h⟩)
    · exact ⟨.sm4KeyexpEnc, rfl, h⟩
    · exact ⟨.sm4KeyexpDec, rfl, h⟩
    · exact ⟨.sm4Crypt, rfl, h⟩
    · exact ⟨.sm4Crypt4, rfl, h⟩
    · exact ⟨.sm3Hash, rfl, h⟩
    · exact ⟨.sm3HashAuto, rfl, h⟩

end Sys2Proof.Machine
end

section
/-! The reset event, the state it leaves, and the idle block (spec/70_reset_and_hazards.md rules R240-R242,
spec/60_exceptions.md rule R225): O8, O56, O57, O58. -/

namespace Sys2Proof.Machine

/-- Settles O8: of the cases of a step, the one with no input left. -/
theorem idleBlockKeepsState : Obligations.IdleBlockKeepsState := fun _ h => step_eq_next.2 (.inl ⟨h, rfl⟩)

/-- R40: reading ⊥ is the model fault. -/
@[simp] theorem RegWord.read_bottom : RegWord.bottom.read = .error .unwrittenRead := rfl

/-- R241: STATUS reads 0 after reset. -/
theorem Status.toWord_reset : Status.reset.toWord = 0 := by decide

/-- R40, R241: after reset every register but CMD, STATUS and CAP holds ⊥, and reading it faults. -/
theorem State.readReg_reset {r : Reg} (hcmd : r ≠ .cmd) (hstatus : r ≠ .status) (hcap : r ≠ .cap) :
    State.reset.readReg r = .error .unwrittenRead := by
  cases r with
  | cmd => exact absurd rfl hcmd
  | status => exact absurd rfl hstatus
  | cap => exact absurd rfl hcap
  | msgLenLo | msgLenHi => exact RegWord.read_bottom
  | key i => simp only [readReg, reset, Quad.get_fill, RegWord.read_bottom]
  | rk i => simp only [readReg, reset, Fin.getElem_fin, Vector.getElem_replicate, RegWord.read_bottom]
  | bin l w | bout l w => simp only [readReg, reset, Quad.get_fill, RegWord.read_bottom]
  | digest i => simp only [readReg, reset, Oct.get_fill, RegWord.read_bottom]

/-- R53, R241: after reset every MSGBUF byte is ⊥. -/
theorem memRead_reset (a : Nat) : memRead State.reset.msgbuf a = none := rfl

/-- Settles O56: STATUS and CAP are the reset values' own, and the data registers and MSGBUF hold ⊥. -/
theorem resetLeaves : Obligations.ResetLeaves :=
  ⟨rfl, rfl, rfl, rfl, Status.toWord_reset, rfl, rfl, fun _ => State.readReg_reset, memRead_reset⟩

/-- Settles O57: of the cases of a step, the reset event, on the state with the reset taken off its inputs. -/
theorem step_resetEvent : Obligations.ResetEvent := fun _ rest h => step_eq_next.2 (.inr (.inr (.inr ⟨rest, h, rfl⟩)))

/-- Settles O58: the reset state is where the induction of O59 starts. -/
theorem invariantAtReset : Obligations.InvariantAtReset := State.inv_reset

end Sys2Proof.Machine
end
